-- ==== Sys2Proof/Word.lean ====
section
/-! DEFINITION. The bit-vector widths the block uses (spec 00_scope.md R8, R9; 30_encoding.md R60). -/

namespace Sys2Proof

/-- One byte: an element of `TXBUF`, the LU data register, `RDATA`. -/
abbrev Byte := BitVec 8

/-- Sixteen bits: the counter `CNT` and the ECD registers (`CNT_W` = 16, R8), lengths and `IDX`. -/
abbrev Half := BitVec 16

/-- Thirty-two bits: a stimulus word (R60) and the two frequency operands (`HZ_W` = 32, R8). -/
abbrev Word := BitVec 32

end Sys2Proof
end

