-- ==== Sys2Proof/Syntax.lean ====
section
/-! DEFINITION. The nine operations of the block as syntax (00_scope.md R3, 30_encoding.md R62). -/

namespace Sys2Proof

/-- One operation with its abstract operands (R63). `address7` is a natural number because the spec refuses
an abstract operand above 127 (R83, R100, R122 `AddressRange`); `direction` is 0 = write, 1 = read. -/
inductive Instr where
  /-- `CFG`, source name `configure` (R81). -/
  | cfg
  /-- `BEGIN`, source name `begin` (R82). -/
  | beginTx
  /-- `SEL`, source name `selectPeer` (R83). -/
  | sel (address7 : Nat) (direction : Bool)
  /-- `WR`, source name `writeByte` (R84). -/
  | wr (byte : Byte)
  /-- `RD`, source name `readByte` (R85). -/
  | rd (expectMore : Bool)
  /-- `END`, source name `end` (R86). -/
  | endTx
  /-- `XMIT`, source name `transmitBuffer` (R100). -/
  | xmit (address7 : Nat) (length : Half)
  /-- `SAMPLE`, source name `sample` (R111). -/
  | sample
  /-- `EDGE`, the interrupt handler, a trace event (R67, R110). -/
  | edge (now : Half) (level : Bool)
  deriving DecidableEq, Repr

end Sys2Proof
end

