-- ==== Sys2Proof/WellFormed.lean ====
section
/-! DEFINITION. Which operations a stimulus word can carry (30_encoding.md R61, R63, R66). -/

namespace Sys2Proof

/-- The operands fit their fields: `address7` is at most 127 (R66: `B[7]` = 1 would be an address above 127);
every other operand has exactly its field's width. -/
def Instr.wf : Instr → Bool
  | .cfg => true
  | .beginTx => true
  | .sel address7 _ => decide (address7 ≤ 127)
  | .wr _ => true
  | .rd _ => true
  | .endTx => true
  | .xmit address7 _ => decide (address7 ≤ 127)
  | .sample => true
  | .edge _ _ => true

/-- The word of the host's command port may carry it: every operation but the trace event `EDGE` (R67). -/
def Instr.isHostCommand : Instr → Bool
  | .edge _ _ => false
  | .cfg => true
  | .beginTx => true
  | .sel _ _ => true
  | .wr _ => true
  | .rd _ => true
  | .endTx => true
  | .xmit _ _ => true
  | .sample => true

/-- `OPC[3]` = 0 selects the Bus Transaction Engine (R60). -/
def Instr.isBte : Instr → Bool
  | .edge _ _ => false
  | .sample => false
  | .cfg => true
  | .beginTx => true
  | .sel _ _ => true
  | .wr _ => true
  | .rd _ => true
  | .endTx => true
  | .xmit _ _ => true

/-- The waits of the operation check `AF` (R82 to R85). -/
def Instr.checksAf : Instr → Bool
  | .cfg => false
  | .beginTx => false
  | .sel _ _ => true
  | .wr _ => true
  | .rd _ => false
  | .endTx => false
  | .xmit _ _ => true
  | .sample => false
  | .edge _ _ => false

end Sys2Proof
end

