-- ==== Sys2Proof/Decode.lean ====
section
/-! DEFINITION. The 32-bit stimulus word: fields, decoder, encoder and the textual form
(30_encoding.md R60 to R63, R66, R68, R69, R70). -/

namespace Sys2Proof

/-- Why a word is illegal (R66); each is the refusal `ReservedEncoding`. -/
inductive Illegal where
  /-- a reserved operation code -/
  | opcode
  /-- `Z` is not 000 -/
  | reservedBits
  /-- a field the row's format requires to be zero is not zero -/
  | operandField
  deriving DecidableEq, Repr

/-- The fields of R60. -/
def opcOf (w : Word) : BitVec 4 := w.extractLsb' 28 4
def zOf (w : Word) : BitVec 3 := w.extractLsb' 25 3
def fOf (w : Word) : Bool := w.getLsbD 24
def bOf (w : Word) : Byte := w.extractLsb' 16 8
def hwOf (w : Word) : Half := w.extractLsb' 0 16

/-- `B[7]` = 0: the byte operand is a 7-bit address (R61, R63). -/
def addressFits (w : Word) : Bool := decide ((bOf w).toNat < 128)

/-- A row is selected when its must-be-zero fields are zero (R61). -/
def liveOnly (zero : Bool) (i : Instr) : Except Illegal Instr :=
  if zero then .ok i else .error .operandField

/-- The decoder: total, every word either selects one row of R62 or is illegal (R66, R68). -/
def decode (w : Word) : Except Illegal Instr :=
  if zOf w ≠ 0 then .error .reservedBits
  else match (opcOf w).toNat with
    | 0x0 => liveOnly (fOf w == false && bOf w == 0 && hwOf w == 0) .cfg
    | 0x1 => liveOnly (fOf w == false && bOf w == 0 && hwOf w == 0) .beginTx
    | 0x2 => liveOnly (addressFits w && hwOf w == 0) (.sel (bOf w).toNat (fOf w))
    | 0x3 => liveOnly (fOf w == false && hwOf w == 0) (.wr (bOf w))
    | 0x4 => liveOnly (bOf w == 0 && hwOf w == 0) (.rd (fOf w))
    | 0x5 => liveOnly (fOf w == false && bOf w == 0 && hwOf w == 0) .endTx
    | 0x6 => liveOnly (fOf w == false && addressFits w) (.xmit (bOf w).toNat (hwOf w))
    | 0x8 => liveOnly (fOf w == false && bOf w == 0 && hwOf w == 0) .sample
    | 0xE => liveOnly (bOf w == 0) (.edge (hwOf w) (fOf w))
    | _ => .error .opcode

/-- A word made of its fields, `Z` = 000 (R60). -/
def packWord (opc : BitVec 4) (f : Bool) (b : Byte) (hw : Half) : Word :=
  opc ++ 0#3 ++ BitVec.ofBool f ++ b ++ hw

/-- The word of an operation (R61 to R63). -/
def encode : Instr → Word
  | .cfg => packWord 0x0 false 0 0
  | .beginTx => packWord 0x1 false 0 0
  | .sel address7 direction => packWord 0x2 direction (BitVec.ofNat 8 address7) 0
  | .wr byte => packWord 0x3 false byte 0
  | .rd expectMore => packWord 0x4 expectMore 0 0
  | .endTx => packWord 0x5 false 0 0
  | .xmit address7 length => packWord 0x6 false (BitVec.ofNat 8 address7) length
  | .sample => packWord 0x8 false 0 0
  | .edge now level => packWord 0xE level 0 now

/-- A row of R62: a word `w` selects it when `w AND mask = pattern`. -/
structure OpcodeRow where
  mask    : Word
  pattern : Word
  deriving DecidableEq, Repr

/-- `w` selects the row (R62). -/
def OpcodeRow.selects (r : OpcodeRow) (w : Word) : Bool := w &&& r.mask == r.pattern

/-- The row of R62 that an operation belongs to. -/
def Instr.row : Instr → OpcodeRow
  | .cfg => ⟨0xFFFFFFFF, 0x00000000⟩
  | .beginTx => ⟨0xFFFFFFFF, 0x10000000⟩
  | .sel _ _ => ⟨0xFE80FFFF, 0x20000000⟩
  | .wr _ => ⟨0xFF00FFFF, 0x30000000⟩
  | .rd _ => ⟨0xFEFFFFFF, 0x40000000⟩
  | .endTx => ⟨0xFFFFFFFF, 0x50000000⟩
  | .xmit _ _ => ⟨0xFF800000, 0x60000000⟩
  | .sample => ⟨0xFFFFFFFF, 0x80000000⟩
  | .edge _ _ => ⟨0xFEFF0000, 0xE0000000⟩

/-- The opcode map, in the order of R62. -/
def opcodeTable : List OpcodeRow :=
  [Instr.cfg.row, Instr.beginTx.row, (Instr.sel 0 false).row, (Instr.wr 0).row, (Instr.rd false).row,
   Instr.endTx.row, (Instr.xmit 0 0).row, Instr.sample.row, (Instr.edge 0 false).row]

/-- The instruction the decoder reads from a word numbered as spec/opcode_table.json numbers it. -/
def decodeTableWord (nbits w : Nat) : Option Instr :=
  if nbits ≤ 32 ∧ w < 2 ^ 32 then (decode (BitVec.ofNat 32 w)).toOption else none

/-- The mnemonic of the opcode table (R62). -/
def Instr.mnemonic : Instr → String
  | .cfg => "CFG"
  | .beginTx => "BEGIN"
  | .sel _ _ => "SEL"
  | .wr _ => "WR"
  | .rd _ => "RD"
  | .endTx => "END"
  | .xmit _ _ => "XMIT"
  | .sample => "SAMPLE"
  | .edge _ _ => "EDGE"

/-- The source's function name (R70). -/
def Instr.sourceName : Instr → String
  | .cfg => "configure"
  | .beginTx => "begin"
  | .sel _ _ => "selectPeer"
  | .wr _ => "writeByte"
  | .rd _ => "readByte"
  | .endTx => "end"
  | .xmit _ _ => "transmitBuffer"
  | .sample => "sample"
  | .edge _ _ => "the edge interrupt handler"

/-- The textual form of a trace statement (R69), numbers in decimal. -/
def Instr.render : Instr → String
  | .cfg => "CFG"
  | .beginTx => "BEGIN"
  | .sel address7 direction => "SEL " ++ toString address7 ++ (if direction then ", R" else ", W")
  | .wr byte => "WR " ++ toString byte.toNat
  | .rd expectMore => if expectMore then "RD ACK" else "RD NACK"
  | .endTx => "END"
  | .xmit address7 length => "XMIT " ++ toString address7 ++ ", " ++ toString length.toNat
  | .sample => "SAMPLE"
  | .edge now level => "EDGE " ++ toString now.toNat ++ (if level then ", H" else ", L")

end Sys2Proof
end

