-- ==== Sys2Proof/Config.lean ====
section
/-! DEFINITION. What the spec leaves to the environment or to the implementer: the vocabulary of the
line unit (LU) accesses the environment's oracle speaks of (10_state.md R25 to R28), the parameters of
00_scope.md R8 that are OPEN, and the free values, each an opaque constant no proof can evaluate. -/

namespace Sys2Proof

/-- The five status flags of the LU, read one at a time (R25). -/
inductive LuFlag where
  | sb | addr | txe | rxne | af
  deriving DecidableEq, Repr

/-- One LU access with its argument and, for a read, its answer: an entry of the history `H` (R27, R28). -/
inductive LuEvent where
  | setStart
  | setStop
  | setAck (ack : Bool)
  | writeDr (value : Byte)
  | clearAf
  | writeCcr (value : BitVec 12)
  | writeTrise (value : Half)
  | poll (flag : LuFlag) (answer : Bool)
  | readSr1 (answer : Nat)
  | readSr3 (answer : Nat)
  | readDr (answer : Byte)
  deriving DecidableEq, Repr

/-- The registers of the LU, which belong to the environment: the control bits the BTE writes (R23), the
data register (R24), the flags (R25) and the two status registers (R26), whose width no source gives. -/
structure Lu where
  start : Bool
  stop  : Bool
  ack   : Bool
  dr    : Byte
  sb    : Bool
  addr  : Bool
  txe   : Bool
  rxne  : Bool
  af    : Bool
  sr1   : Nat
  sr3   : Nat
  deriving DecidableEq, Repr, Inhabited

/-- `DIV_RAW` is OPEN (R8): the default of R81, or some other function, which stays unknown. -/
inductive DivRaw where
  | standardMode
  | other
  deriving DecidableEq, Repr

/-- What `SAMPLE` does at the zero divisor: the fault of R112, or the draw in [0, 5000] that
92_eei_decisions.md D19 names for a model that must not fault. -/
inductive ZeroDivisor where
  | fault
  | draw
  deriving DecidableEq, Repr

namespace Config

/-- `N_POLL` of the machine after reset: OPEN, no default (R8, D2). -/
opaque nPoll : Nat

/-- An unclamped divider other than the default, of (core clock, bus clock) (R8, D5). -/
opaque divRawOther : Nat → Nat → Nat

/-- The LU oracle's answer to `LU.Poll`, from the whole history (R25, R27). -/
opaque luPoll : List LuEvent → LuFlag → Bool

/-- The LU oracle's answer to `LU.ReadSR1` (R26, R27). -/
opaque luSr1 : List LuEvent → Nat

/-- The LU oracle's answer to `LU.ReadSR3` (R26, R27). -/
opaque luSr3 : List LuEvent → Nat

/-- The LU oracle's answer to `LU.ReadDR` (R24, R27). -/
opaque luDr : List LuEvent → Byte

/-- `RDATA` after an `RD` that timed out: unspecified (R85, U3). -/
opaque freeRdata : Nat → Byte

/-- `MEAS` after the zero-divisor fault: unspecified (R111, R112). -/
opaque freeMeas : Nat → Half

/-- The draw behind `MEAS` where the zero divisor does not fault (D19); the machine bounds it by 5000. -/
opaque freeMeasInRange : Nat → Nat

/-! Reset draws, one for each register whose reset value is unspecified: no claim may rely on one (R141). -/

opaque resetClkCore : Word
opaque resetClkBus  : Word
opaque resetCcr     : BitVec 12
opaque resetTrise   : Half
opaque resetA7      : BitVec 7
opaque resetDir     : Bool
opaque resetTxb     : Byte
opaque resetMore    : Bool
opaque resetLen     : Half
opaque resetOutcome : BitVec 2
opaque resetRdata   : Byte
opaque resetIdx     : Half
opaque resetLu      : Lu
opaque resetSnapH   : Half
opaque resetSnapL   : Half
opaque resetMeas    : Half
opaque resetCnt     : Half
opaque resetPin     : Bool

end Config

end Sys2Proof
end

