-- ==== Sys2Proof/Machine/State.lean ====
section
/-! DEFINITION. The state of `AQM-BC` as plain data, why a step can stop, and the state after reset
(10_state.md, 70_reset_and_hazards.md R140 to R143, 60_exceptions.md R122). -/

namespace Sys2Proof.Machine

/-- `TransactionOutcome` (R15); its numbers are R65's. -/
inductive TxOutcome where
  | success | timeout | nack
  deriving DecidableEq, Repr

/-- The sequencing state of the BTE (R21). -/
inductive Phase where
  | idle | issue | poll | finish
  deriving DecidableEq, Repr

/-- The execution context (R38): foreground, or inside an interrupt handler. -/
inductive Ctx where
  | fg | irq
  deriving DecidableEq, Repr

/-- The transmit buffer `TXBUF` (R41): elements by index, indices strictly rising; an unlisted index has no
value (R161). -/
abbrev Memory := List Host.Cell

/-- Answers to coming LU reads that the environment has already fixed, oldest first: to `LU.Poll`, to
`LU.ReadDR`, to `LU.ReadSR1` and `LU.ReadSR3`. Where a queue is empty the oracle of `Config` answers. -/
structure EnvScript where
  polls    : List Bool
  bytes    : List Byte
  statuses : List Nat
  deriving DecidableEq, Repr

/-- What the accesses of the BTE and the answers of the environment change: the wait in progress, the LU beneath
the BTE, the answers already fixed, and the history (R17, R23 to R28). -/
structure Line where
  /-- `ITER`, completed unsuccessful iterations of the wait (R17) -/
  iter : Nat
  /-- the LU registers, owned by the environment (R23 to R26) -/
  lu   : Lu
  /-- the model's own: scripted answers of the environment -/
  env  : EnvScript
  /-- ghost `H`, oldest access first (R28) -/
  hist : List LuEvent
  deriving DecidableEq, Repr

/-- The Bus Transaction Engine and the LU beneath it (R11 to R28). -/
structure Bus where
  /-- `CLKCORE`, in hertz (R11) -/
  clkCore  : Word
  /-- `CLKBUS`, in hertz (R11) -/
  clkBus   : Word
  /-- `CCR`, the clock divider (R12) -/
  ccr      : BitVec 12
  /-- `TRISE`, the rise-time parameter (R13) -/
  trise    : Half
  /-- operand latch `A7` (R14) -/
  a7       : BitVec 7
  /-- operand latch `DIR`, 0 = write (R14) -/
  dir      : Bool
  /-- operand latch `TXB` (R14) -/
  txb      : Byte
  /-- operand latch `MORE` (R14) -/
  more     : Bool
  /-- operand latch `LEN` (R14) -/
  len      : Half
  /-- `OUTCOME` (R15) -/
  outcome  : BitVec 2
  /-- `RDATA`, the received byte (R16) -/
  rdata    : Byte
  /-- `BUSY` (R18) -/
  busy     : Bool
  /-- `PHASE` (R21) -/
  phase    : Phase
  /-- `IDX`, the byte index of `XMIT` (R19) -/
  idx      : Half
  /-- ghost `CFG_COUNT` (R20) -/
  cfgCount : Nat
  /-- ghost `N_WR_OK`, `WR` steps ended with `Success` (R28) -/
  nWrOk    : Nat
  /-- ghost `N_END`, `END` executions (R28) -/
  nEnd     : Nat
  /-- the wait, the LU, the environment's answers and `H` -/
  line     : Line
  /-- the model's own: index of the next free value of the BTE -/
  draws    : Nat
  deriving DecidableEq, Repr

/-- The Edge-Capture Decoder (R29 to R32). -/
structure Ecd where
  /-- `LAST_RISE` (R29) -/
  lastRise : Half
  /-- `LAST_FALL` (R29) -/
  lastFall : Half
  /-- `HIGH_INT` (R30) -/
  highInt  : Half
  /-- `LOW_INT` (R30) -/
  lowInt   : Half
  /-- `READY` (R31) -/
  ready    : Bool
  /-- `SNAP_H` (R32) -/
  snapH    : Half
  /-- `SNAP_L` (R32) -/
  snapL    : Half
  /-- `MEAS` (R32) -/
  meas     : Half
  /-- the model's own: index of the next free value of the ECD -/
  draws    : Nat
  deriving DecidableEq, Repr

/-- One foreground micro-step of a BTE operation that is executed access by access (R21, R49): an LU access,
or bookkeeping between two. -/
inductive Micro where
  | setStart
  | setAck (ack : Bool)
  | writeDr (value : Byte)
  /-- compute `CCR` and `TRISE` -/
  | cfgCompute
  | writeCcr
  | writeTrise
  /-- `ITER <- 0`, enter the wait -/
  | openWait (flag : LuFlag) (checkAf : Bool)
  /-- the loop test and the wanted-flag sample of one iteration -/
  | sampleFlag (flag : LuFlag) (checkAf : Bool)
  /-- the `AF` sample of the same iteration -/
  | sampleAf (flag : LuFlag)
  | clearAf
  | readSr1
  | readSr3
  | setStop
  | readDr
  /-- `RDATA <- unspecified` -/
  | loseRdata
  /-- a `WR` step ended with `Success` -/
  | wrDone
  /-- `IDX <- IDX + 1` -/
  | stepIdx
  /-- the loop test of `XMIT` -/
  | nextByte
  /-- the body of `END` -/
  | endBody
  /-- completion of `CFG` -/
  | finishCfg
  /-- `OUTCOME` written, `BUSY <- 0` -/
  | finish (outcome : TxOutcome)
  deriving DecidableEq, Repr

/-- Where a `SAMPLE` that is executed step by step stands (R111); `saved` is the saved `IE`. -/
inductive SampleStage where
  | test
  | openSection
  | copyHigh (saved : Bool)
  | copyLow (saved : Bool)
  | clearReady (saved : Bool)
  | closeSection (saved : Bool)
  | measure
  deriving DecidableEq, Repr

/-- The rest of the foreground operation in progress, when it is executed step by step. -/
inductive Work where
  | none
  | bte (rest : List Micro)
  | sample (stage : SampleStage)
  deriving DecidableEq, Repr

/-- One stimulus: a move of the host or of the environment (R67, R160, R161). -/
inductive Stimulus where
  /-- a word of a trace: a host command, or the event `EDGE` (R67); a command runs to completion -/
  | traced (w : Word)
  /-- a word the host presents on the command port (R67); it runs to completion -/
  | presented (w : Word)
  /-- as `presented`, but the operation is only accepted; `advance` executes it -/
  | issued (w : Word)
  /-- the foreground makes the next micro-step of its operation in progress -/
  | advance
  /-- the host writes `CLKCORE` (R161) -/
  | setClkCore (hz : Word)
  /-- the host writes `CLKBUS` (R161) -/
  | setClkBus (hz : Word)
  /-- the host fills one element of `TXBUF` (R161) -/
  | fillTxbuf (index : Half) (value : Byte)
  /-- the host fills `TXBUF` from element 0 and nothing else (R69) -/
  | loadTxbuf (bytes : List Byte)
  /-- the environment moves `CNT` and `PIN` (R34, R35) -/
  | drive (cnt : Half) (pin : Bool)
  /-- the edge detector signals an edge: `EDGE_PEND` (R37, R125) -/
  | signalEdge
  /-- the environment changes the LU's registers (R23 to R26) -/
  | luMoves (lu : Lu)
  /-- another handler of the microcontroller begins (R128) -/
  | otherHandlerEnters
  /-- that handler returns (R128) -/
  | otherHandlerReturns
  deriving DecidableEq, Repr

/-- The parameters of the machine (R8, R160): fixed in a run, never written by a step. -/
structure Params where
  /-- `N_POLL` -/
  nPoll       : Nat
  /-- `DIV_RAW` -/
  divRaw      : DivRaw
  /-- the zero divisor of `SAMPLE` (R112, D19) -/
  zeroDivisor : ZeroDivisor
  deriving DecidableEq, Repr

/-- The whole machine. -/
structure State where
  params   : Params
  bus      : Bus
  ecd      : Ecd
  /-- `IE`, the global interrupt enable (R36) -/
  ie       : Bool
  /-- `CTX` (R38) -/
  ctx      : Ctx
  /-- `CNT`, the free-running counter (R34) -/
  cnt      : Half
  /-- `PIN`, 1 = high (R35) -/
  pin      : Bool
  /-- `EDGE_PEND` (R37) -/
  edgePend : Bool
  /-- `TXBUF` (R41) -/
  txbuf    : Memory
  /-- the model's own: the operation in progress, when it is executed step by step -/
  work     : Work
  /-- the model's own: the stimuli still to come, next first -/
  trace    : List Stimulus
  deriving DecidableEq, Repr

/-- The model-level faults (R122); each carries the state the raising rule leaves. -/
inductive Fault where
  /-- `SampleDivideByZero`, raised by `SAMPLE` after the drain (R111, R112); safe: the run stops. -/
  | sampleDivideByZero (after : State)
  /-- Raised by `XMIT` when it reaches an element of `TXBUF` the host has not filled (R161, R141); safe: the
  run stops. -/
  | txbufElementMissing (found : State)
  deriving DecidableEq, Repr

/-- The model-level refusals (R122); a refusal changes no state. -/
inductive Refusal where
  /-- An arm of `exec` that has no meaning yet; safe. -/
  | notModelled (mnemonic : String)
  /-- `ReservedEncoding`, raised by the decoder (R66); safe: the run stops. -/
  | reservedEncoding
  /-- `EventNotCommand`, raised where the host presents an `EDGE` word (R67); safe: the run stops. -/
  | eventNotCommand
  /-- `BusyReissue`, raised by a BTE command at `BUSY` = 1 (R87); safe: the run stops. -/
  | busyReissue
  /-- `BusOpInInterrupt`, raised by a BTE command at `CTX` = `IRQ` (R87); safe: the run stops. -/
  | busOpInInterrupt
  /-- `ConfigBusClockZero`, raised by `CFG` at `CLKBUS` = 0 (R81); safe: the run stops. -/
  | configBusClockZero
  /-- `AddressRange`, raised by `SEL` and `XMIT` for an abstract address above 127 (R83, R100); safe: the run
  stops. -/
  | addressRange
  /-- `SampleInInterrupt`, raised by `SAMPLE` at `CTX` = `IRQ` (R111); safe: the run stops. -/
  | sampleInInterrupt
  /-- `SampleWithInterruptsOff`, raised by `SAMPLE` at `IE` = 0 (R111); safe: the run stops. -/
  | sampleWithInterruptsOff
  deriving DecidableEq, Repr

/-- What one step, or one meaning, answers. -/
abbrev Result := Host.Outcome State Fault Refusal

/-- The machine right after reset (R140, R143; 10_state.md section 6). Registers the spec leaves unspecified
hold the draws of `Config` (R141). -/
def State.reset : State where
  params := { nPoll := Config.nPoll, divRaw := .standardMode, zeroDivisor := .fault }
  bus :=
    { clkCore := Config.resetClkCore, clkBus := Config.resetClkBus
      ccr := Config.resetCcr, trise := Config.resetTrise
      a7 := Config.resetA7, dir := Config.resetDir, txb := Config.resetTxb
      more := Config.resetMore, len := Config.resetLen
      outcome := Config.resetOutcome, rdata := Config.resetRdata
      busy := false, phase := .idle, idx := Config.resetIdx
      cfgCount := 0, nWrOk := 0, nEnd := 0
      line :=
        { iter := 0, lu := Config.resetLu, env := { polls := [], bytes := [], statuses := [] }, hist := [] }
      draws := 0 }
  ecd :=
    { lastRise := 0, lastFall := 0, highInt := 0, lowInt := 0, ready := false
      snapH := Config.resetSnapH, snapL := Config.resetSnapL, meas := Config.resetMeas, draws := 0 }
  ie := true
  ctx := .fg
  cnt := Config.resetCnt
  pin := Config.resetPin
  edgePend := false
  txbuf := []
  work := .none
  trace := []

end Sys2Proof.Machine
end

