-- ==== Sys2Proof/Machine/Flags.lean ====
section
/-! DEFINITION. The LU's status flags as register bits (10_state.md R25) and the outcome codes
(30_encoding.md R65). -/

namespace Sys2Proof.Machine

/-- The bit of a status flag in the LU registers (R25). -/
def luFlag (l : Lu) : LuFlag → Bool
  | .sb => l.sb
  | .addr => l.addr
  | .txe => l.txe
  | .rxne => l.rxne
  | .af => l.af

/-- The LU registers with one status flag set to a value (R25). -/
def luWithFlag (l : Lu) (v : Bool) : LuFlag → Lu
  | .sb => { l with sb := v }
  | .addr => { l with addr := v }
  | .txe => { l with txe := v }
  | .rxne => { l with rxne := v }
  | .af => { l with af := v }

/-- The two-bit code of an outcome (R65): 3 is never produced. -/
def TxOutcome.code : TxOutcome → BitVec 2
  | .success => 0
  | .timeout => 1
  | .nack => 2

end Sys2Proof.Machine
end

