-- ==== Sys2Proof/Machine/Operands.lean ====
section
/-! DEFINITION. The values computed from operands: the framed address byte (30_encoding.md R64), the two timing
parameters (40_bus_primitives.md R81), interval and measurement arithmetic (42_edge_capture.md R112, R113). -/

namespace Sys2Proof.Machine

/-- The first framed byte of a transaction: address in bits 7 to 1, direction in bit 0 (R64, R42). -/
def frameByte (a7 : BitVec 7) (direction : Bool) : Byte := a7 ++ BitVec.ofBool direction

/-- `clamp(v, lo, hi)` of R9. -/
def clamp (v lo hi : Nat) : Nat := min (max v lo) hi

/-- `DIV_RAW(core, bus)`: the default `core / (2 * bus)`, truncating and unwrapped, or the unknown function of
the parameter (R8, R81). -/
def divRaw : DivRaw → Nat → Nat → Nat
  | .standardMode, core, bus => core / (2 * bus)
  | .other, core, bus => Config.divRawOther core bus

/-- The value of `CCR`: the raw divider clamped to [4, 4095] (R12, R81). -/
def ccrValue (kind : DivRaw) (core bus : Word) : BitVec 12 :=
  BitVec.ofNat 12 (clamp (divRaw kind core.toNat bus.toNat) 4 4095)

/-- The value of `TRISE`: the core clock in MHz, truncated, plus one (R13, R81). -/
def triseValue (core : Word) : Half := BitVec.ofNat 16 (core.toNat / 1000000 + 1)

/-- An interval: 16-bit subtraction modulo 65536 (R110, R113). -/
def interval (now since : Half) : Half := now - since

/-- `Measure(h, l)` on mathematical integers; no value at the zero divisor (R112). -/
def measurePair (h l : Half) : Option Nat :=
  if h.toNat < 2000 then some 0
  else if h.toNat + l.toNat < 4000 then some 0
  else if h.toNat + l.toNat = 4000 then none
  else some (min ((5000 * (h.toNat - 2000)) / (h.toNat + l.toNat - 4000)) 5000)

end Sys2Proof.Machine
end

