-- ==== Sys2Proof/Machine/Ops.lean ====
section
/-! DEFINITION. The shared operations: the transmit buffer (20_memory.md R41), the LU accesses (10_state.md R27),
the bounded wait (40_bus_primitives.md R80), acceptance and completion of BTE commands (R87), the critical
section (R48), and taking the edge interrupt and returning from it (60_exceptions.md R127, R128). -/

namespace Sys2Proof.Machine

/-! ### The transmit buffer -/

/-- One element; an unlisted index has no value (R41, R161). -/
def Memory.read (m : Memory) (i : Nat) : Option Byte :=
  match m with
  | [] => none
  | (j, v) :: rest => if i = j then some v else Memory.read rest i

/-- One element filled by the host; keeps the indices rising. -/
def Memory.write (m : Memory) (i : Nat) (v : Byte) : Memory :=
  match m with
  | [] => [(i, v)]
  | (j, u) :: rest =>
    if i < j then (i, v) :: (j, u) :: rest
    else if i = j then (i, v) :: rest
    else (j, u) :: Memory.write rest i v

/-- The elements of a byte list from index `i` on. -/
def Memory.ofBytes (i : Nat) : List Byte → Memory
  | [] => []
  | v :: rest => (i, v) :: Memory.ofBytes (i + 1) rest

/-- The canonical form: indices strictly rising. -/
def Memory.wf : Memory → Bool
  | [] => true
  | [_] => true
  | (i, _) :: (j, v) :: rest => decide (i < j) && Memory.wf ((j, v) :: rest)

/-- The elements `0` to `n - 1` exist (R41). -/
def Memory.covers (m : Memory) : Nat → Bool
  | 0 => true
  | n + 1 => Memory.covers m n && (Memory.read m n).isSome

/-! ### LU accesses (R27); each one is recorded in `H` (R28) -/

/-- Append one access to `H`. -/
def Line.record (l : Line) (e : LuEvent) : Line := { l with hist := l.hist ++ [e] }

/-- `LU.SetSTART` (R23). -/
def luSetStart (l : Line) : Line := Line.record { l with lu := { l.lu with start := true } } .setStart

/-- `LU.SetSTOP` (R23). -/
def luSetStop (l : Line) : Line := Line.record { l with lu := { l.lu with stop := true } } .setStop

/-- `LU.SetACK(b)` (R23). -/
def luSetAck (ack : Bool) (l : Line) : Line := Line.record { l with lu := { l.lu with ack := ack } } (.setAck ack)

/-- `LU.WriteDR(v)` (R24). -/
def luWriteDr (v : Byte) (l : Line) : Line := Line.record { l with lu := { l.lu with dr := v } } (.writeDr v)

/-- `LU.ClearAF` (R25). -/
def luClearAf (l : Line) : Line := Line.record { l with lu := luWithFlag l.lu false .af } .clearAf

/-- `LU.WriteCCR(v)` (R12). -/
def luWriteCcr (v : BitVec 12) (l : Line) : Line := Line.record l (.writeCcr v)

/-- `LU.WriteTRISE(v)` (R13). -/
def luWriteTrise (v : Half) (l : Line) : Line := Line.record l (.writeTrise v)

/-- The environment's answer to the next `LU.Poll(f)`: scripted, or the oracle's from the whole history (R25,
R27). -/
def pollAnswer (f : LuFlag) (l : Line) : Bool :=
  match l.env.polls with
  | a :: _ => a
  | [] => Config.luPoll l.hist f

/-- `LU.Poll(f)`: the flag shows the environment's answer, which `pollAnswer` gives (R25). -/
def luPoll (f : LuFlag) (l : Line) : Line :=
  Line.record
    { l with env := { l.env with polls := l.env.polls.tail }
             lu := luWithFlag l.lu (pollAnswer f l) f }
    (.poll f (pollAnswer f l))

/-- The environment's answer to the next read of a status register. -/
def statusAnswer (oracle : List LuEvent → Nat) (l : Line) : Nat :=
  match l.env.statuses with
  | a :: _ => a
  | [] => oracle l.hist

/-- `LU.ReadSR1`, value discarded (R26). -/
def luReadSr1 (l : Line) : Line :=
  Line.record
    { l with env := { l.env with statuses := l.env.statuses.tail }
             lu := { l.lu with sr1 := statusAnswer Config.luSr1 l } }
    (.readSr1 (statusAnswer Config.luSr1 l))

/-- `LU.ReadSR3`, value discarded: the second read of the two-register sequence, the only place it is made, so it
clears the address-matched condition (R26, R44). -/
def luReadSr3 (l : Line) : Line :=
  Line.record
    { l with env := { l.env with statuses := l.env.statuses.tail }
             lu := { luWithFlag l.lu false .addr with sr3 := statusAnswer Config.luSr3 l } }
    (.readSr3 (statusAnswer Config.luSr3 l))

/-- The environment's answer to the next `LU.ReadDR`. -/
def drAnswer (l : Line) : Byte :=
  match l.env.bytes with
  | v :: _ => v
  | [] => Config.luDr l.hist

/-- `LU.ReadDR`: the data register shows the received byte (R24). -/
def luReadDr (l : Line) : Line :=
  Line.record
    { l with env := { l.env with bytes := l.env.bytes.tail }
             lu := { l.lu with dr := drAnswer l } }
    (.readDr (drAnswer l))

/-! ### The bounded wait (R80) -/

/-- `ITER <- i`. -/
def Line.withIter (i : Nat) (l : Line) : Line := { l with iter := i }

/-- At most `n` more iterations of the loop of `PollWait`. -/
def pollLoop (f : LuFlag) (checkAf : Bool) : Nat → Line → TxOutcome × Line
  | 0, l => (.timeout, l)
  | n + 1, l =>
    if pollAnswer f l then (.success, luPoll f l)
    else if checkAf then
      if pollAnswer .af (luPoll f l) then (.nack, luClearAf (luPoll .af (luPoll f l)))
      else pollLoop f checkAf n ((luPoll .af (luPoll f l)).withIter (l.iter + 1))
    else pollLoop f checkAf n ((luPoll f l).withIter (l.iter + 1))

/-- `PollWait(flag, checkAF)` with budget `nPoll` (R80). -/
def pollWait (nPoll : Nat) (f : LuFlag) (checkAf : Bool) (l : Line) : TxOutcome × Line :=
  pollLoop f checkAf nPoll (l.withIter 0)

/-! ### Acceptance and completion of a BTE command (R87) -/

/-- The state with another BTE. -/
def State.withBus (s : State) (b : Bus) : State := { s with bus := b }

/-- The state with another ECD. -/
def State.withEcd (s : State) (e : Ecd) : State := { s with ecd := e }

/-- The BTE after accesses to the LU. -/
def Bus.withLine (b : Bus) (l : Line) : Bus := { b with line := l }

/-- `PHASE <- p` (R21). -/
def Bus.withPhase (b : Bus) (p : Phase) : Bus := { b with phase := p }

/-- A BTE command is accepted at `BUSY` = 0 and `CTX` = `FG` and refused otherwise; on acceptance `BUSY <- 1`
and `PHASE` leaves `IDLE` (R87). -/
def acceptBte (s : State) (run : Bus → Result) : Result :=
  if s.bus.busy then .refused .busyReissue
  else if s.ctx = .irq then .refused .busOpInInterrupt
  else run { s.bus with busy := true, phase := .issue }

/-- `BUSY <- 0`, `PHASE <- IDLE`. -/
def release (b : Bus) : Bus := { b with busy := false, phase := .idle }

/-- Completion of an operation that returns an outcome: `OUTCOME` written, then `release`. -/
def complete (o : TxOutcome) (b : Bus) : Bus := release { b with outcome := o.code }

/-! ### The critical section (R48) -/

/-- `IE <- 0`. -/
def criticalOpen (s : State) : State := { s with ie := false }

/-- `IE <- saved`. -/
def criticalClose (saved : Bool) (s : State) : State := { s with ie := saved }

/-! ### The edge interrupt (R125, R127, R128) -/

/-- A handler may run: `IE` = 1 and `CTX` = `FG` (R110, R125). -/
def State.handlerEnabled (s : State) : Bool := s.ie && decide (s.ctx = .fg)

/-- Entry: the foreground stops between two of its steps and `CTX` becomes `IRQ`; the block saves nothing
(R127). -/
def interruptEnter (s : State) : State := { s with ctx := .irq }

/-- Return: `CTX` becomes `FG`, `IE` as it was (R128). -/
def interruptReturn (s : State) : State := { s with ctx := .fg }

/-- A handler run: entry, the whole body, return; nothing comes between (R128). -/
def takeInterrupt (body : State → State) (s : State) : State := interruptReturn (body (interruptEnter s))

/-- The next stimulus, and the state without it. -/
def State.fetch (s : State) : Option (Stimulus × State) :=
  match s.trace with
  | [] => none
  | x :: rest => some (x, { s with trace := rest })

end Sys2Proof.Machine
end

