-- ==== Sys2Proof/Machine/BusPrimitives.lean ====
section
/-! DEFINITION. The six primitives of the Bus Transaction Engine (40_bus_primitives.md): bodies, and the meanings
of `CFG`, `BEGIN`, `SEL`, `WR`, `RD`, `END`. -/

namespace Sys2Proof.Machine

/-- `CCR` and `TRISE` computed from the operands (R81). -/
def computeCfg (kind : DivRaw) (b : Bus) : Bus :=
  { b with ccr := ccrValue kind b.clkCore b.clkBus, trise := triseValue b.clkCore }

/-- Ghost `CFG_COUNT` counted (R20). -/
def countCfg (b : Bus) : Bus := { b with cfgCount := b.cfgCount + 1 }

/-- Body of `CFG` (R81): both parameters computed, then written to the LU, `CCR` first. -/
def cfgBody (kind : DivRaw) (b : Bus) : Bus :=
  let c := computeCfg kind b
  countCfg (c.withLine (luWriteTrise c.trise (luWriteCcr c.ccr c.line)))

/-- Body of `BEGIN` (R82). -/
def beginBody (nPoll : Nat) (l : Line) : TxOutcome × Line := pollWait nPoll .sb false (luSetStart l)

/-- Body of `SEL` (R83): the two status reads only on `Success`, `SR1` first. -/
def selBody (nPoll : Nat) (a7 : BitVec 7) (direction : Bool) (l : Line) : TxOutcome × Line :=
  let waited := pollWait nPoll .addr true (luWriteDr (frameByte a7 direction) l)
  if waited.1 = .success then (waited.1, luReadSr3 (luReadSr1 waited.2)) else waited

/-- Ghost `N_WR_OK` counted (R28). -/
def countWr (b : Bus) : Bus := { b with nWrOk := b.nWrOk + 1 }

/-- Body of `WR` (R84), with the ghost count of `WR` steps ended with `Success`. -/
def wrBody (nPoll : Nat) (v : Byte) (b : Bus) : TxOutcome × Bus :=
  let waited := pollWait nPoll .txe true (luWriteDr v b.line)
  if waited.1 = .success then (waited.1, countWr (b.withLine waited.2)) else (waited.1, b.withLine waited.2)

/-- `RDATA <- unspecified` (R85): the next free value. -/
def loseRdata (b : Bus) : Bus := { b with rdata := Config.freeRdata b.draws, draws := b.draws + 1 }

/-- `RDATA <- LU.ReadDR` (R85): the received byte is what `DR` shows. -/
def takeRdata (b : Bus) : Bus :=
  let l := luReadDr b.line
  { b with line := l, rdata := l.lu.dr }

/-- Body of `RD` (R85): acknowledge bit first, stop of the last byte before the data-register read. -/
def rdBody (nPoll : Nat) (more : Bool) (b : Bus) : TxOutcome × Bus :=
  let waited := pollWait nPoll .rxne false (luSetAck more b.line)
  if waited.1 = .success then
    (waited.1, takeRdata (b.withLine (if more then waited.2 else luSetStop waited.2)))
  else (waited.1, loseRdata (b.withLine waited.2))

/-- Body of `END` (R86), with the ghost count of `END` executions (R28). -/
def endBody (b : Bus) : Bus := { b.withLine (luSetStop b.line) with nEnd := b.nEnd + 1 }

/-- `CFG` (R81). -/
def execCfg (s : State) : Result :=
  acceptBte s fun b =>
    if b.clkBus = 0 then .refused .configBusClockZero
    else .next (s.withBus (release (cfgBody s.params.divRaw b)))

/-- `BEGIN` (R82). -/
def execBegin (s : State) : Result :=
  acceptBte s fun b =>
    let r := beginBody s.params.nPoll b.line
    .next (s.withBus (complete r.1 (b.withLine r.2)))

/-- The latches of `SEL` (R14). -/
def latchSel (address7 : Nat) (direction : Bool) (b : Bus) : Bus :=
  { b with a7 := BitVec.ofNat 7 address7, dir := direction }

/-- `SEL` (R83). -/
def execSel (address7 : Nat) (direction : Bool) (s : State) : Result :=
  acceptBte s fun b =>
    if 127 < address7 then .refused .addressRange
    else
      let b := latchSel address7 direction b
      let r := selBody s.params.nPoll b.a7 b.dir b.line
      .next (s.withBus (complete r.1 (b.withLine r.2)))

/-- The latch of `WR` (R14). -/
def latchWr (v : Byte) (b : Bus) : Bus := { b with txb := v }

/-- `WR` (R84). -/
def execWr (v : Byte) (s : State) : Result :=
  acceptBte s fun b =>
    let r := wrBody s.params.nPoll v (latchWr v b)
    .next (s.withBus (complete r.1 r.2))

/-- The latch of `RD` (R14). -/
def latchRd (more : Bool) (b : Bus) : Bus := { b with more := more }

/-- `RD` (R85). -/
def execRd (more : Bool) (s : State) : Result :=
  acceptBte s fun b =>
    let r := rdBody s.params.nPoll more (latchRd more b)
    .next (s.withBus (complete r.1 r.2))

/-- `END` (R86). -/
def execEnd (s : State) : Result :=
  acceptBte s fun b => .next (s.withBus (complete .success (endBody b)))

end Sys2Proof.Machine
end

