-- ==== Sys2Proof/Machine/BusComposite.lean ====
section
/-! DEFINITION. The composite operation of the Bus Transaction Engine, `XMIT` (41_bus_composite.md R100 to R104). -/

namespace Sys2Proof.Machine

/-- `IDX <- 0` (R100). -/
def clearIdx (b : Bus) : Bus := { b with idx := 0 }

/-- `IDX <- IDX + 1` (R100). -/
def stepIdx (b : Bus) : Bus := { b with idx := b.idx + 1 }

/-- The loop of `XMIT` with `n` bytes to go: element `IDX` of the buffer is read just before its `WR` (R50).
No outcome where the buffer has no such element (R161). -/
def xmitBytes (nPoll : Nat) (txbuf : Memory) : Nat → Bus → Option TxOutcome × Bus
  | 0, b => (some .success, b)
  | n + 1, b =>
    match Memory.read txbuf b.idx.toNat with
    | none => (none, b)
    | some v =>
      let sent := wrBody nPoll v b
      if sent.1 = .success then xmitBytes nPoll txbuf n (stepIdx sent.2) else (some sent.1, sent.2)

/-- Body of `XMIT` (R100): the first failure ends it, with no `END`. -/
def xmitBody (nPoll : Nat) (txbuf : Memory) (a7 : BitVec 7) (len : Half) (b : Bus) : Option TxOutcome × Bus :=
  let b := clearIdx b
  let begun := beginBody nPoll b.line
  if begun.1 = .success then
    let selected := selBody nPoll a7 false begun.2
    if selected.1 = .success then
      let sent := xmitBytes nPoll txbuf len.toNat (b.withLine selected.2)
      if sent.1 = some .success then (some .success, endBody sent.2) else sent
    else (some selected.1, b.withLine selected.2)
  else (some begun.1, b.withLine begun.2)

/-- The latches of `XMIT` (R14). -/
def latchXmit (address7 : Nat) (len : Half) (b : Bus) : Bus :=
  { b with a7 := BitVec.ofNat 7 address7, len := len }

/-- How `XMIT` ends: completion with its outcome, or the fault of a missing element. A buffer that has the
elements `0` to `LEN - 1` always gives an outcome. -/
def xmitEnd (s : State) (covered : Bool) (r : Option TxOutcome × Bus) : Result :=
  if covered then .next (s.withBus (complete (r.1.getD .success) r.2))
  else match r.1 with
    | some o => .next (s.withBus (complete o r.2))
    | none => .fault (.txbufElementMissing (s.withBus r.2))

/-- `XMIT` (R100). -/
def execXmit (address7 : Nat) (len : Half) (s : State) : Result :=
  acceptBte s fun b =>
    if 127 < address7 then .refused .addressRange
    else
      let b := latchXmit address7 len b
      xmitEnd s (Memory.covers s.txbuf len.toNat) (xmitBody s.params.nPoll s.txbuf b.a7 len b)

end Sys2Proof.Machine
end

