-- ==== Sys2Proof/Machine/EdgeCapture.lean ====
section
/-! DEFINITION. The Edge-Capture Decoder (42_edge_capture.md): the handler `EDGE` and the foreground operation
`SAMPLE`. -/

namespace Sys2Proof.Machine

/-- Steps 3 and 4 of the handler on the shared record, from the captured counter and the level read (R110). -/
def captureEdge (now : Half) (level : Bool) (e : Ecd) : Ecd :=
  if level then { e with lowInt := interval now e.lastFall, lastRise := now }
  else { e with highInt := interval now e.lastRise, lastFall := now, ready := true }

/-- The body of the handler: `now <- CNT`, `lvl <- PIN`, then steps 3 and 4 (R110). -/
def edgeBody (s : State) : State := s.withEcd (captureEdge s.cnt s.pin s.ecd)

/-- One run of the edge handler (R110, R127, R128). -/
def runEdgeHandler (s : State) : State := takeInterrupt edgeBody s

/-- `EDGE`: the environment sets `CNT` and `PIN` and the handler runs once (R67); where the handler is not
enabled, no handler runs (R110, R124). -/
def execEdge (now : Half) (level : Bool) (s : State) : Result :=
  if s.handlerEnabled then .next (runEdgeHandler { s with cnt := now, pin := level }) else .next s

/-- `SNAP_H <- HIGH_INT` (R111). -/
def copyHigh (s : State) : State := s.withEcd { s.ecd with snapH := s.ecd.highInt }

/-- `SNAP_L <- LOW_INT` (R111). -/
def copyLow (s : State) : State := s.withEcd { s.ecd with snapL := s.ecd.lowInt }

/-- `READY <- 0` (R111). -/
def clearReady (s : State) : State := s.withEcd { s.ecd with ready := false }

/-- `MEAS <- v` (R111, R112). -/
def withMeas (v : Half) (s : State) : State := s.withEcd { s.ecd with meas := v }

/-- The next free value of the ECD is used. -/
def useDraw (s : State) : State := s.withEcd { s.ecd with draws := s.ecd.draws + 1 }

/-- Step 2 of `SAMPLE`, the critical section: `IE` saved, cleared and restored (R48, R111). -/
def drain (s : State) : State :=
  criticalClose s.ie (clearReady (copyLow (copyHigh (criticalOpen s))))

/-- Steps 3 and 4 of `SAMPLE` on the snapshots (R112); at the zero divisor the fault, `MEAS` being
unspecified, or the bounded draw of the parameter (D19). -/
def measureSnapshot (s : State) : Result :=
  match measurePair s.ecd.snapH s.ecd.snapL with
  | some v => .next (withMeas (BitVec.ofNat 16 v) s)
  | none =>
    match s.params.zeroDivisor with
    | .fault => .fault (.sampleDivideByZero (useDraw (withMeas (Config.freeMeas s.ecd.draws) s)))
    | .draw =>
      .next (useDraw (withMeas (BitVec.ofNat 16 (Config.freeMeasInRange s.ecd.draws % 5001)) s))

/-- `SAMPLE` is accepted at `CTX` = `FG` and `IE` = 1 (R111). -/
def acceptSample (s : State) (run : State → Result) : Result :=
  if s.ctx = .irq then .refused .sampleInInterrupt
  else if s.ie = false then .refused .sampleWithInterruptsOff
  else run s

/-- `SAMPLE` (R111); steps 1 and 2 are one step (R49). -/
def execSample (s : State) : Result :=
  acceptSample s fun s =>
    if s.ecd.ready then measureSnapshot (drain s) else .next (withMeas 0 s)

end Sys2Proof.Machine
end

