-- ==== Sys2Proof/Machine/Dispatch.lean ====
section
/-! DEFINITION. One arm per operation of the opcode table (30_encoding.md R62). -/

namespace Sys2Proof.Machine

def exec (i : Instr) (s : State) : Host.Outcome State Fault Refusal :=
  match i with
  | .cfg => Sys2Proof.Machine.execCfg s
  | .beginTx => Sys2Proof.Machine.execBegin s
  | .sel address7 direction => Sys2Proof.Machine.execSel address7 direction s
  | .wr byte => Sys2Proof.Machine.execWr byte s
  | .rd expectMore => Sys2Proof.Machine.execRd expectMore s
  | .endTx => Sys2Proof.Machine.execEnd s
  | .xmit address7 length => Sys2Proof.Machine.execXmit address7 length s
  | .sample => Sys2Proof.Machine.execSample s
  | .edge now level => Sys2Proof.Machine.execEdge now level s

end Sys2Proof.Machine
end

