-- ==== Sys2Proof/Machine/Stepwise.lean ====
section
/-! DEFINITION. The same operations executed access by access, so that a handler run, or any other move of the
environment, can come between two LU accesses of a BTE operation or between two steps of `SAMPLE` (10_state.md
R21, 20_memory.md R47, R49, 60_exceptions.md R125, R127). The meanings that `exec` calls run the same operation
as one step. -/

namespace Sys2Proof.Machine

/-! ### The micro-steps of a BTE operation -/

/-- `BEGIN` (R82). -/
def beginMicros : List Micro := [.setStart, .openWait .sb false]

/-- `SEL` (R83). -/
def selMicros (a7 : BitVec 7) (direction : Bool) : List Micro :=
  [.writeDr (frameByte a7 direction), .openWait .addr true, .readSr1, .readSr3]

/-- `WR` (R84). -/
def wrMicros (v : Byte) : List Micro := [.writeDr v, .openWait .txe true, .wrDone]

/-- `RD` (R85). -/
def rdMicros (more : Bool) : List Micro :=
  if more then [.setAck more, .openWait .rxne false, .readDr]
  else [.setAck more, .openWait .rxne false, .setStop, .readDr]

/-- What is left of an operation whose wait for `f` did not end in `Success`: the outcome, and for `RD`, the
only operation that waits for `RXNE`, an unspecified `RDATA` (R85, R100). -/
def abandon (f : LuFlag) (o : TxOutcome) : List Micro :=
  if f = .rxne then [.loseRdata, .finish o] else [.finish o]

/-- What one micro-step leaves. -/
inductive MicroResult where
  /-- the operation goes on -/
  | more (rest : List Micro) (b : Bus)
  /-- the operation has completed -/
  | done (b : Bus)
  /-- the element of `TXBUF` to be sent does not exist (R161) -/
  | missing (b : Bus)
  deriving DecidableEq, Repr

/-- One micro-step, `rest` being what the operation does after it; `PHASE` follows R21. -/
def microStep (p : Params) (txbuf : Memory) (rest : List Micro) (b : Bus) : Micro → MicroResult
  | .setStart => .more rest ((b.withLine (luSetStart b.line)).withPhase .issue)
  | .setAck ack => .more rest ((b.withLine (luSetAck ack b.line)).withPhase .issue)
  | .writeDr v => .more rest ((b.withLine (luWriteDr v b.line)).withPhase .issue)
  | .cfgCompute => .more rest (computeCfg p.divRaw b)
  | .writeCcr => .more rest (b.withLine (luWriteCcr b.ccr b.line))
  | .writeTrise => .more rest (b.withLine (luWriteTrise b.trise b.line))
  | .openWait f checkAf =>
    .more (.sampleFlag f checkAf :: rest) ((b.withLine (b.line.withIter 0)).withPhase .poll)
  | .sampleFlag f checkAf =>
    if b.line.iter < p.nPoll then
      if pollAnswer f b.line then .more rest ((b.withLine (luPoll f b.line)).withPhase .finish)
      else if checkAf then .more (.sampleAf f :: rest) (b.withLine (luPoll f b.line))
      else .more (.sampleFlag f checkAf :: rest)
        (b.withLine ((luPoll f b.line).withIter (b.line.iter + 1)))
    else .more (abandon f .timeout) b
  | .sampleAf f =>
    if pollAnswer .af b.line then .more (.clearAf :: abandon f .nack) (b.withLine (luPoll .af b.line))
    else .more (.sampleFlag f true :: rest)
      (b.withLine ((luPoll .af b.line).withIter (b.line.iter + 1)))
  | .clearAf => .more rest (b.withLine (luClearAf b.line))
  | .readSr1 => .more rest (b.withLine (luReadSr1 b.line))
  | .readSr3 => .more rest (b.withLine (luReadSr3 b.line))
  | .setStop => .more rest (b.withLine (luSetStop b.line))
  | .readDr => .more rest (takeRdata b)
  | .loseRdata => .more rest (loseRdata b)
  | .wrDone => .more rest (countWr b)
  | .stepIdx => .more rest (stepIdx b)
  | .nextByte =>
    if b.idx.toNat < b.len.toNat then
      match Memory.read txbuf b.idx.toNat with
      | none => .missing b
      | some v => .more (wrMicros v ++ [.stepIdx, .nextByte]) b
    else .more [.endBody, .finish .success] b
  | .endBody => .more rest (endBody b)
  | .finishCfg => .done (release (countCfg b))
  | .finish o => .done (complete o b)

/-! ### Issuing an operation for step-by-step execution -/

/-- Acceptance (R87) with nothing executed yet. -/
def issueBte (s : State) (latch : Bus → Bus) (program : List Micro) : Result :=
  acceptBte s fun b => .next { s.withBus (latch b) with work := .bte program }

/-- The host issues an operation: it is accepted or refused as its one-step meaning is, and nothing more happens
yet; `EDGE` is no host command (R67). -/
def issue (i : Instr) (s : State) : Result :=
  match i with
  | .cfg =>
    acceptBte s fun b =>
      if b.clkBus = 0 then .refused .configBusClockZero
      else .next { s.withBus b with work := .bte [.cfgCompute, .writeCcr, .writeTrise, .finishCfg] }
  | .beginTx => issueBte s id (beginMicros ++ [.finish .success])
  | .sel address7 direction =>
    acceptBte s fun b =>
      if 127 < address7 then .refused .addressRange
      else .next { s.withBus (latchSel address7 direction b) with
        work := .bte (selMicros (BitVec.ofNat 7 address7) direction ++ [.finish .success]) }
  | .wr byte => issueBte s (latchWr byte) (wrMicros byte ++ [.finish .success])
  | .rd expectMore => issueBte s (latchRd expectMore) (rdMicros expectMore ++ [.finish .success])
  | .endTx => issueBte s id [.endBody, .finish .success]
  | .xmit address7 length =>
    acceptBte s fun b =>
      if 127 < address7 then .refused .addressRange
      else .next { s.withBus (clearIdx (latchXmit address7 length b)) with
        work := .bte (beginMicros ++ selMicros (BitVec.ofNat 7 address7) false ++ [.nextByte]) }
  | .sample => acceptSample s fun s => .next { s with work := .sample .test }
  | .edge _ _ => .refused .eventNotCommand

/-! ### Advancing the operation in progress -/

/-- The foreground's next micro-step of a BTE operation. -/
def advanceBte (m : Micro) (rest : List Micro) (s : State) : Result :=
  match microStep s.params s.txbuf rest s.bus m with
  | .more rest' b => .next { s.withBus b with work := .bte rest' }
  | .done b => .next { s.withBus b with work := .none }
  | .missing b => .fault (.txbufElementMissing (s.withBus b))

/-- The foreground's next step of `SAMPLE` (R111). -/
def advanceSample (stage : SampleStage) (s : State) : Result :=
  match stage with
  | .test =>
    if s.ecd.ready then .next { s with work := .sample .openSection }
    else .next { withMeas 0 s with work := .none }
  | .openSection => .next { criticalOpen s with work := .sample (.copyHigh s.ie) }
  | .copyHigh saved => .next { copyHigh s with work := .sample (.copyLow saved) }
  | .copyLow saved => .next { copyLow s with work := .sample (.clearReady saved) }
  | .clearReady saved => .next { clearReady s with work := .sample (.closeSection saved) }
  | .closeSection saved => .next { criticalClose saved s with work := .sample .measure }
  | .measure => measureSnapshot { s with work := .none }

/-- The foreground makes its next micro-step, if it has one and no handler is running (R127, R160). -/
def advance (s : State) : Result :=
  if s.ctx = .irq then .next s
  else match s.work with
    | .none => .next s
    | .bte [] => .next { s with work := .none }
    | .bte (m :: rest) => advanceBte m rest s
    | .sample stage => advanceSample stage s

/-- `n` micro-steps in a row, stopping at the first fault. -/
def advances : Nat → State → Result
  | 0, s => .next s
  | n + 1, s =>
    match advance s with
    | .next s' => advances n s'
    | .fault r => .fault r
    | .refused r => .refused r

end Sys2Proof.Machine
end

