-- ==== Sys2Proof/Machine/Trace.lean ====
section
/-! DEFINITION. What one stimulus does: words (30_encoding.md R66, R67), the host's data moves (R161) and the
environment's moves (R125, R128, R160). -/

namespace Sys2Proof.Machine

/-- The foreground is free for its next move: no operation of its own is in progress and `BUSY` = 0 (R39, R160). -/
def State.foregroundFree (s : State) : Bool := decide (s.work = .none) && !s.bus.busy

/-- The foreground's move `x`, which would answer `r`. Commands run one at a time, each blocking the foreground until
it completes (R47, R130, R160): while an operation is in progress the foreground makes that operation's next
micro-step, `x` staying next, unless `x` is a command for which a refusal of R122 is due. The wait, and that such a
refusal comes before it, are a DESIGN CHOICE (log 14). -/
def foregroundMove (x : Stimulus) (s : State) (r : Result) : Result :=
  if s.foregroundFree then r
  else match r with
    | .refused q => .refused q
    | .next _ => advance { s with trace := x :: s.trace }
    | .fault _ => advance { s with trace := x :: s.trace }

/-- A word of a trace (R67): a host command, or one handler run, which is no move of the foreground. -/
def runTraced (w : Word) (s : State) : Result :=
  match decode w with
  | .ok i => if i.isHostCommand then foregroundMove (.traced w) s (exec i s) else exec i s
  | .error _ => .refused .reservedEncoding

/-- A word the host presents: as a trace word, but `EDGE` is no command (R67). -/
def runPresented (w : Word) (s : State) : Result :=
  match decode w with
  | .ok i => if i.isHostCommand then foregroundMove (.presented w) s (exec i s) else .refused .eventNotCommand
  | .error _ => .refused .reservedEncoding

/-- A word the host presents for step-by-step execution. -/
def runIssued (w : Word) (s : State) : Result :=
  match decode w with
  | .ok i => foregroundMove (.issued w) s (issue i s)
  | .error _ => .refused .reservedEncoding

/-- A host write to an operand register or to `TXBUF`: made at `BUSY` = 0 (R161), by a foreground inside no operation
(R160); until then it waits (DESIGN CHOICE, log 14). The spec assumes that no other handler touches the block (R128)
and names no consequence; that the model does not look at `CTX` here is a DESIGN CHOICE (log 23). -/
def hostWrite (x : Stimulus) (s written : State) : Result := foregroundMove x s (.next written)

/-- One stimulus. -/
def apply (x : Stimulus) (s : State) : Result :=
  match x with
  | .traced w => runTraced w s
  | .presented w => runPresented w s
  | .issued w => runIssued w s
  | .advance => advance s
  | .setClkCore hz => hostWrite x s (s.withBus { s.bus with clkCore := hz })
  | .setClkBus hz => hostWrite x s (s.withBus { s.bus with clkBus := hz })
  | .fillTxbuf index value => hostWrite x s { s with txbuf := Memory.write s.txbuf index.toNat value }
  | .loadTxbuf bytes => hostWrite x s { s with txbuf := Memory.ofBytes 0 bytes }
  | .drive cnt pin => .next { s with cnt := cnt, pin := pin }
  | .signalEdge => .next { s with edgePend := true }
  | .luMoves lu => .next (s.withBus (s.bus.withLine { s.bus.line with lu := lu }))
  | .otherHandlerEnters => if s.handlerEnabled then .next (interruptEnter s) else .next s
  | .otherHandlerReturns => .next (interruptReturn s)

/-- The pending edge is served now: `EDGE_PEND`, `IE` and `CTX` = `FG` (R37, R125). -/
def State.servesEdge (s : State) : Bool := s.edgePend && s.handlerEnabled

/-- Service of the pending edge: `EDGE_PEND` is cleared at the handler's start (R125). -/
def serveEdge (s : State) : State := runEdgeHandler { s with edgePend := false }

/-- The stimulus `w` put first, with no pending edge before it and the foreground free for it (log 1). -/
def placeWord (s : State) (w : Word) : State :=
  { s with bus := release s.bus, work := .none, trace := .traced w :: s.trace, edgePend := false }

end Sys2Proof.Machine
end

