-- ==== Sys2Proof/Machine/Step.lean ====
section
/-! DEFINITION. One step of the machine: the service of a pending edge, or the next stimulus. -/

namespace Sys2Proof.Machine

/-- One step. A pending edge is served first where the handler is enabled (60_exceptions.md R125); otherwise the
next stimulus acts; with none left the block waits (70_reset_and_hazards.md R140). -/
def step (s : State) : Host.Outcome State Fault Refusal :=
  if s.servesEdge then .next (serveEdge s)
  else match s.fetch with
    | none => .next s
    | some (x, s') => apply x s'

/-- `s` with an instruction placed so that the very next step runs it (30_encoding.md R60, R67). -/
def State.withFetchWord (s : State) (_nbits w : Nat) : State := placeWord s (BitVec.ofNat 32 w)

end Sys2Proof.Machine
end

