-- ==== Sys2Proof/Machine/Environment.lean ====
section
/-! DEFINITION. The scripted environment of 92_eei_decisions.md D26: answers to whole waits, written out as answers
to the single `LU.Poll` reads the machine makes. -/

namespace Sys2Proof.Machine

/-- A wait answer of D26. -/
inductive WaitAnswer where
  | hit (k : Nat)
  | nak (k : Nat)
  | dead
  | both (k : Nat)
  deriving DecidableEq, Repr

/-- The wanted-flag sample in iteration `i` (D26). -/
def WaitAnswer.flagAt : WaitAnswer → Nat → Bool
  | .hit k, i => decide (i = k)
  | .nak _, _ => false
  | .dead, _ => false
  | .both k, i => decide (i = k)

/-- The `AF` sample in iteration `i` (D26). -/
def WaitAnswer.afAt : WaitAnswer → Nat → Bool
  | .hit _, _ => false
  | .nak k, i => decide (i = k)
  | .dead, _ => false
  | .both k, i => decide (k ≤ i)

/-- The `LU.Poll` answers a wait takes from iteration `i` on, with `n` iterations left. -/
def WaitAnswer.pollsFrom (a : WaitAnswer) (checkAf : Bool) : Nat → Nat → List Bool
  | 0, _ => []
  | n + 1, i =>
    if a.flagAt i then [true]
    else if checkAf then
      if a.afAt i then [false, true] else false :: false :: a.pollsFrom checkAf n (i + 1)
    else false :: a.pollsFrom checkAf n (i + 1)

/-- The `LU.Poll` answers a whole wait takes. -/
def WaitAnswer.polls (a : WaitAnswer) (nPoll : Nat) (checkAf : Bool) : List Bool :=
  a.pollsFrom checkAf nPoll 0

/-- The last column of D26's table. -/
def WaitAnswer.outcome (a : WaitAnswer) (nPoll : Nat) (checkAf : Bool) : TxOutcome :=
  match a with
  | .hit k => if k < nPoll then .success else .timeout
  | .nak k => if k < nPoll ∧ checkAf = true then .nack else .timeout
  | .dead => .timeout
  | .both k => if k < nPoll then .success else .timeout

/-- `ITER` after the wait (D26; `N_POLL` after a `Timeout`, R121). -/
def WaitAnswer.iter (a : WaitAnswer) (nPoll : Nat) (checkAf : Bool) : Nat :=
  match a with
  | .hit k => if k < nPoll then k else nPoll
  | .nak k => if k < nPoll ∧ checkAf = true then k else nPoll
  | .dead => nPoll
  | .both k => if k < nPoll then k else nPoll

/-- The answers of a wait put in front of what is already scripted. -/
def Line.script (l : Line) (answers : List Bool) : Line :=
  { l with env := { l.env with polls := answers ++ l.env.polls } }

end Sys2Proof.Machine
end

