-- ==== Sys2Proof/Safety.lean ====
section
/-! DEFINITION. The terms the statements use: when the block accepts a command, what a wait leaves in `H`, what a
safe step is, launch and end of a run (70_reset_and_hazards.md R162, R163), and the invariants of the machine. -/

namespace Sys2Proof.Machine

/-! ### Acceptance -/

/-- A BTE command is accepted: `BUSY` = 0 and `CTX` = `FG` (R87). -/
abbrev State.BteReady (s : State) : Prop := s.bus.busy = false ∧ s.ctx = .fg

/-- `SAMPLE` is accepted: `CTX` = `FG` and `IE` = 1 (R111). -/
abbrev State.SampleReady (s : State) : Prop := s.ctx = .fg ∧ s.ie = true

/-- A host write of R161: an operand register, or the transmit buffer. -/
def Stimulus.isHostWrite : Stimulus → Bool
  | .setClkCore _ => true
  | .setClkBus _ => true
  | .fillTxbuf _ _ => true
  | .loadTxbuf _ => true
  | .traced _ => false
  | .presented _ => false
  | .issued _ => false
  | .advance => false
  | .drive _ _ => false
  | .signalEdge => false
  | .luMoves _ => false
  | .otherHandlerEnters => false
  | .otherHandlerReturns => false

/-- `h ≥ 2000` and `h + l = 4000`: the zero divisor of `SAMPLE` (R112). -/
abbrev ZeroDivisorPair (h l : Half) : Prop := 2000 ≤ h.toNat ∧ h.toNat + l.toNat = 4000

/-! ### Outcomes of a step -/

/-- The next state, if there is one. -/
def nextState? : Result → Option State
  | .next s => some s
  | .fault _ => none
  | .refused _ => none

/-- A step is safe when it neither faults nor refuses: a state after a refusal or a fault is never final
(R162). -/
def SafeStep (s : State) : Prop := ∃ t, step s = .next t

/-! ### Runs -/

/-- The launch premises of R163 that concern the block itself. -/
def State.Launch (s : State) : Prop :=
  s.ie = true ∧ s.ctx = .fg ∧ s.bus.busy = false ∧ s.bus.phase = .idle ∧ s.work = .none

/-- The end of a run: nothing left to do, `BUSY` = 0, `CTX` = `FG` (R162). -/
def State.Completed (s : State) : Prop :=
  s.trace = [] ∧ s.work = .none ∧ s.bus.busy = false ∧ s.ctx = .fg

/-! ### What a bounded wait leaves in `H` (R80) -/

/-- The accesses of `k` unsuccessful iterations. -/
def missedIterations (f : LuFlag) (checkAf : Bool) (k : Nat) : List LuEvent :=
  (List.replicate k (if checkAf then [.poll f false, .poll .af false] else [.poll f false])).flatten

/-- The accesses of a wait that ends with outcome `o` in iteration `k`, or after `k` iterations. -/
def waitEvents (f : LuFlag) (checkAf : Bool) (o : TxOutcome) (k : Nat) : List LuEvent :=
  match o with
  | .success => missedIterations f checkAf k ++ [.poll f true]
  | .nack => missedIterations f checkAf k ++ [.poll f false, .poll .af true, .clearAf]
  | .timeout => missedIterations f checkAf k

/-- When a wait ends with outcome `o`: the iteration is within the budget, or the budget is spent. -/
def waitEnds (nPoll : Nat) (checkAf : Bool) (o : TxOutcome) (k : Nat) : Prop :=
  match o with
  | .success => k < nPoll
  | .nack => checkAf = true ∧ k < nPoll
  | .timeout => k = nPoll

/-- The accesses of a `BEGIN` whose wait ends with `o` (R82). -/
def beginEvents (o : TxOutcome) (k : Nat) : List LuEvent := .setStart :: waitEvents .sb false o k

/-- The accesses of a `SEL` that frames `v`, its wait ending with `o`; the two status reads, `SR1` first, on
`Success` only (R83, R145). -/
def selEvents (v : Byte) (o : TxOutcome) (k v1 v3 : Nat) : List LuEvent :=
  .writeDr v :: waitEvents .addr true o k ++ (if o = .success then [.readSr1 v1, .readSr3 v3] else [])

/-- The accesses of the `WR` of one byte, its wait ending with `o` (R84). -/
def wrEvents (v : Byte) (o : TxOutcome) (k : Nat) : List LuEvent := .writeDr v :: waitEvents .txe true o k

/-- The accesses of a list of `WR` steps that all ended with `Success`, each a byte and the iteration its wait ended
in. -/
def sentEvents (sent : List (Byte × Nat)) : List LuEvent := (sent.map fun p => wrEvents p.1 .success p.2).flatten

/-- `sent` is the elements of the buffer from `first` on, in order, each wait having ended within its budget. -/
def SentFrom (nPoll : Nat) (m : Memory) (first : Nat) (sent : List (Byte × Nat)) : Prop :=
  sent.map (fun p => some p.1) = (List.range sent.length).map (fun i => Memory.read m (first + i)) ∧
  ∀ p ∈ sent, p.2 < nPoll

/-- The bytes a list of accesses wrote to the LU data register. -/
def writtenBytes : List LuEvent → List Byte
  | [] => []
  | .writeDr v :: rest => v :: writtenBytes rest
  | .setStart :: rest => writtenBytes rest
  | .setStop :: rest => writtenBytes rest
  | .setAck _ :: rest => writtenBytes rest
  | .clearAf :: rest => writtenBytes rest
  | .writeCcr _ :: rest => writtenBytes rest
  | .writeTrise _ :: rest => writtenBytes rest
  | .poll _ _ :: rest => writtenBytes rest
  | .readSr1 _ :: rest => writtenBytes rest
  | .readSr3 _ :: rest => writtenBytes rest
  | .readDr _ :: rest => writtenBytes rest

/-- The most LU accesses an operation makes (R159): its fixed accesses, plus `2 * N_POLL + 1` for each wait. -/
def accessBound (nPoll : Nat) : Instr → Nat
  | .cfg => 2
  | .beginTx => 1 + (2 * nPoll + 1)
  | .sel _ _ => 3 + (2 * nPoll + 1)
  | .wr _ => 1 + (2 * nPoll + 1)
  | .rd _ => 3 + (2 * nPoll + 1)
  | .endTx => 1
  | .xmit _ length => (length.toNat + 5) + (length.toNat + 2) * (2 * nPoll + 1)
  | .sample => 0
  | .edge _ _ => 0

/-! ### Invariants -/

/-- The transmit buffer keeps its canonical form. -/
def TxbufCanonical (s : State) : Prop := Memory.wf s.txbuf = true

/-- A micro-step that ends its operation, or starts the next round of `XMIT`. -/
def Micro.Terminal (m : Micro) : Prop := m = .nextByte ∨ m = .finishCfg ∨ ∃ o, m = .finish o

/-- `BUSY` = 1 exactly while a BTE operation is in progress, `PHASE` = `IDLE` exactly at `BUSY` = 0 (R18, R21),
and an operation in progress always has its completion ahead. -/
def BusyPhaseAgree (s : State) : Prop :=
  (s.bus.phase = .idle ↔ s.bus.busy = false) ∧
  (s.bus.busy = true ↔ ∃ ms, s.work = .bte ms) ∧
  (∀ ms, s.work = .bte ms → ∃ before last, ms = before ++ [last] ∧ last.Terminal)

/-- `ITER` never exceeds `N_POLL` (R17); between the two samples of an iteration it is still below. -/
def IterWithinBudget (s : State) : Prop :=
  s.bus.line.iter ≤ s.params.nPoll ∧
  (∀ ms, s.work = .bte ms →
    (∀ f, .sampleAf f ∉ ms.tail) ∧ (∀ f, .sampleAf f ∈ ms → s.bus.line.iter < s.params.nPoll))

/-- The divider is in [4, 4095] once a `CFG` has completed (R12); the twelve bits of `CCR` give the upper bound.
A `CFG` in progress computes the divider before it completes. -/
def DividerInRange (s : State) : Prop :=
  (0 < s.bus.cfgCount → 4 ≤ s.bus.ccr.toNat) ∧
  (∀ before after, s.work = .bte (before ++ .finishCfg :: after) →
    .cfgCompute ∈ before ∨ 4 ≤ s.bus.ccr.toNat)

/-- A `SAMPLE` executed step by step is inside its critical section. -/
def SampleStage.critical : SampleStage → Bool
  | .test => false
  | .openSection => false
  | .copyHigh _ => true
  | .copyLow _ => true
  | .clearReady _ => true
  | .closeSection _ => true
  | .measure => false

/-- The `IE` a `SAMPLE` in progress will restore. -/
def SampleStage.savedIe : SampleStage → Bool
  | .test => true
  | .openSection => true
  | .copyHigh saved => saved
  | .copyLow saved => saved
  | .clearReady saved => saved
  | .closeSection saved => saved
  | .measure => true

/-- Interrupts are on except inside the critical section of `SAMPLE`, which will turn them on again (R36, R48,
R124). -/
def InterruptsOnOutsideSection (s : State) : Prop :=
  (s.ie = false → ∃ stage, s.work = .sample stage ∧ stage.critical = true) ∧
  (∀ stage, s.work = .sample stage → stage.savedIe = true)

end Sys2Proof.Machine
end

