-- ==== Sys2Proof/Certificates/Slice0/Obligations.lean ====
section
/-! DEFINITION. The statements about the model, each from the rules of the spec its docstring names. -/

open Sys2Proof Sys2Proof.Machine

/-! ### Encoding -/

/-- Decoding the word of a well-formed operation gives it back, for every operation and every operand value
(R61 to R63). -/
def Obligations.DecodeEncodeAgree : Prop :=
  ∀ i : Instr, i.wf = true → decode (encode i) = .ok i

/-- A word that decodes is the word of what it decodes to, and that is well formed: each word has one meaning
(R68). -/
def Obligations.DecodedWordIsItsEncoding : Prop :=
  ∀ (w : Word) (i : Instr), decode w = .ok i → i.wf = true ∧ encode i = w

/-- Every word either selects exactly one row of the opcode table, the row of what it decodes to, or is illegal and
selects none (R62, R68). -/
def Obligations.DecodeIsTotalAndUnambiguous : Prop :=
  ∀ w : Word,
    (∃ i, decode w = .ok i ∧ ∀ r ∈ opcodeTable, (r.selects w = true ↔ r = i.row)) ∨
    (∃ e, decode w = .error e ∧ ∀ r ∈ opcodeTable, r.selects w = false)

/-- Words written out from R62 decode to their operations; one of each row. -/
def Obligations.SpecWordsDecode : Prop :=
  decode 0x00000000 = .ok .cfg ∧ decode 0x10000000 = .ok .beginTx ∧
  decode 0x21270000 = .ok (.sel 0x27 true) ∧ decode 0x30A50000 = .ok (.wr 0xA5) ∧
  decode 0x41000000 = .ok (.rd true) ∧ decode 0x50000000 = .ok .endTx ∧
  decode 0x60270004 = .ok (.xmit 0x27 4) ∧ decode 0x80000000 = .ok .sample ∧
  decode 0xE1000C1C = .ok (.edge 3100 true)

/-! ### One step -/

/-- When the next stimulus is a word of the trace that decodes, or a word the host presents that decodes to a host
command, the step is `exec` of what it decodes to, the stimulus being taken (R67); where no pending edge is served
first (R125). Host commands run one at a time (R47, R130, R160): while the foreground is inside an operation, a
command whose refusal is due is refused, and any other waits, the step being the operation's next micro-step. The same
for a word issued for step-by-step execution, with `issue` in the place of `exec`. The wait, and that a refusal that
is due is given before it, are the model's choice, log 14. -/
def Obligations.StepRunsDecodedInstruction : Prop :=
  ∀ (s : State) (w : Word) (rest : List Stimulus) (i : Instr) (run : State → Result),
    s.servesEdge = false → decode w = .ok i →
    (s.trace = .traced w :: rest ∧ run = exec i ∨
      s.trace = .presented w :: rest ∧ i.isHostCommand = true ∧ run = exec i ∨
      s.trace = .issued w :: rest ∧ i.isHostCommand = true ∧ run = issue i) →
    (s.foregroundFree = true ∨ i.isHostCommand = false → step s = run { s with trace := rest }) ∧
    (s.foregroundFree = false → i.isHostCommand = true →
      (∀ r, run { s with trace := rest } = .refused r → step s = .refused r) ∧
      ((∀ r, run { s with trace := rest } ≠ .refused r) → step s = advance s))

/-- A word placed by `withFetchWord` is what the very next step runs, no edge being pending and the foreground being
free for it (the placing is the model's own, log 1, log 11). -/
def Obligations.PlacedWordRunsNext : Prop :=
  ∀ (s : State) (w : Word) (i : Instr), decode w = .ok i →
    step (s.withFetchWord 32 w.toNat) =
      exec i { s with bus := { s.bus with busy := false, phase := .idle }, work := .none, edgePend := false }

/-- An illegal word is refused with `ReservedEncoding`, however it is given (R66). -/
def Obligations.IllegalWordRefused : Prop :=
  ∀ (s : State) (w : Word) (rest : List Stimulus) (e : Illegal),
    s.servesEdge = false → decode w = .error e →
    (s.trace = .traced w :: rest ∨ s.trace = .presented w :: rest ∨ s.trace = .issued w :: rest) →
    step s = .refused .reservedEncoding

/-- A host that presents an `EDGE` word is refused (R67), also where it presents it for step-by-step execution, and
whatever else is going on. -/
def Obligations.EdgeWordIsNoCommand : Prop :=
  ∀ (s : State) (w : Word) (rest : List Stimulus) (now : Half) (level : Bool),
    s.servesEdge = false → decode w = .ok (.edge now level) →
    (s.trace = .presented w :: rest ∨ s.trace = .issued w :: rest) →
    step s = .refused .eventNotCommand

/-- `EDGE_PEND` and `CTX`. A pending edge is served as soon as the handler is enabled: one handler run with the
current `CNT` and `PIN`, `EDGE_PEND` cleared at its start, and no stimulus taken (R125, R128). An edge signalled sets
`EDGE_PEND`, also where it is set already (R37, R125). Another handler takes `CTX` to `IRQ` where a handler is
enabled, its return takes `CTX` to `FG`, `IE` as it was; between the two the foreground makes no step (R127, R128).
That pending edges come first is log 11, that other handlers only enter and return is log 13: the model's choices. -/
def Obligations.EdgePendingAndContext : Prop :=
  ∀ (s : State) (rest : List Stimulus),
    (s.edgePend = true → s.ie = true → s.ctx = .fg →
      step s = .next { s with ecd := captureEdge s.cnt s.pin s.ecd, edgePend := false }) ∧
    (s.servesEdge = false → s.trace = .signalEdge :: rest →
      step s = .next { s with edgePend := true, trace := rest }) ∧
    (s.servesEdge = false → s.trace = .otherHandlerEnters :: rest → s.ie = true → s.ctx = .fg →
      step s = .next { s with ctx := .irq, trace := rest }) ∧
    (s.servesEdge = false → s.trace = .otherHandlerEnters :: rest → (s.ie = false ∨ s.ctx = .irq) →
      step s = .next { s with trace := rest }) ∧
    (s.servesEdge = false → s.trace = .otherHandlerReturns :: rest →
      step s = .next { s with ctx := .fg, trace := rest }) ∧
    (s.trace = .advance :: rest → s.ctx = .irq → step s = .next { s with trace := rest })

/-! ### The bounded wait -/

/-- R80: for every environment a wait ends with one of the three outcomes, within its budget, with `ITER` counting the
unsuccessful iterations, and appends to `H` exactly the samples the rule counts, the wanted flag before `AF` in each
iteration, and one `ClearAF` on `Nack`. -/
def Obligations.PollWaitHistory : Prop :=
  ∀ (n : Nat) (f : LuFlag) (checkAf : Bool) (l : Line),
    ∃ (o : TxOutcome) (k : Nat),
      waitEnds n checkAf o k ∧
      (pollWait n f checkAf l).1 = o ∧ (pollWait n f checkAf l).2.iter = k ∧
      (pollWait n f checkAf l).2.hist = l.hist ++ waitEvents f checkAf o k

/-- A wait under a scripted answer ends as the table of D26 says and takes exactly that answer's polls. -/
def Obligations.PollWaitFollowsScript : Prop :=
  ∀ (n : Nat) (f : LuFlag) (checkAf : Bool) (a : WaitAnswer) (l : Line),
    (pollWait n f checkAf (l.script (a.polls n checkAf))).1 = a.outcome n checkAf ∧
    (pollWait n f checkAf (l.script (a.polls n checkAf))).2.iter = a.iter n checkAf ∧
    (pollWait n f checkAf (l.script (a.polls n checkAf))).2.env = l.env

/-! ### Acceptance of BTE commands -/

/-- R87: a BTE command at `BUSY` = 1 is refused with `BusyReissue`; at `BUSY` = 0 inside a handler with
`BusOpInInterrupt`. The same for a command that is issued for step-by-step execution. Which comes first is the model's
choice, log 9. -/
def Obligations.BteCommandRefused : Prop :=
  ∀ (i : Instr) (s : State), i.isBte = true →
    (s.bus.busy = true → exec i s = .refused .busyReissue ∧ issue i s = .refused .busyReissue) ∧
    (s.bus.busy = false → s.ctx = .irq →
      exec i s = .refused .busOpInInterrupt ∧ issue i s = .refused .busOpInInterrupt)

/-- `SEL` and `XMIT` refuse an abstract address above 127 with `AddressRange` (R83, R100). -/
def Obligations.AddressAboveRangeRefused : Prop :=
  ∀ (s : State) (address7 : Nat) (direction : Bool) (length : Half), s.BteReady → 127 < address7 →
    exec (.sel address7 direction) s = .refused .addressRange ∧
    exec (.xmit address7 length) s = .refused .addressRange

/-! ### The primitives -/

/-- `CFG` (R81): `CCR` and `TRISE` computed and written to the LU in that order, `CFG_COUNT` counted, `OUTCOME` and
everything else unchanged. What the LU registers do beside the written bits and the sampled flags is the model's
choice, log 4. -/
def Obligations.CfgResult : Prop :=
  ∀ s : State, s.BteReady → s.bus.clkBus ≠ 0 →
    ∃ t : State, exec .cfg s = .next t ∧
      t.bus.ccr = BitVec.ofNat 12
        (min (max (divRaw s.params.divRaw s.bus.clkCore.toNat s.bus.clkBus.toNat) 4) 4095) ∧
      t.bus.trise = BitVec.ofNat 16 (s.bus.clkCore.toNat / 1000000 + 1) ∧
      t = { s with bus := { s.bus with
        ccr := t.bus.ccr
        trise := t.bus.trise
        line := { s.bus.line with
          hist := s.bus.line.hist ++ [.writeCcr t.bus.ccr, .writeTrise t.bus.trise] }
        cfgCount := s.bus.cfgCount + 1
        phase := .idle } }

/-- The two timing parameters as numbers: the divider is in [4, 4095] for every `DIV_RAW`, is the clamped default
`core / (2 * bus)` under the default, and `TRISE` is the core clock in MHz plus one without wrapping
(R12, R13, R81). -/
def Obligations.CfgParametersAsNumbers : Prop :=
  ∀ s t : State, exec .cfg s = .next t →
    4 ≤ t.bus.ccr.toNat ∧ t.bus.ccr.toNat ≤ 4095 ∧
    t.bus.trise.toNat = s.bus.clkCore.toNat / 1000000 + 1 ∧
    (s.params.divRaw = .standardMode →
      t.bus.ccr.toNat = min (max (s.bus.clkCore.toNat / (2 * s.bus.clkBus.toNat)) 4) 4095)

/-- `CFG` at `CLKBUS` = 0 is refused (R81). -/
def Obligations.CfgBusClockZeroRefused : Prop :=
  ∀ s : State, s.BteReady → s.bus.clkBus = 0 → exec .cfg s = .refused .configBusClockZero

/-- `BEGIN` (R82): it answers a next state with outcome `Success` or `Timeout`; `H` gains `SetSTART` and the polls of
`SB`; `AF` is neither sampled nor cleared; the frame. What the LU registers do beside the written bits and the sampled
flags is the model's choice, log 4. -/
def Obligations.BeginResult : Prop :=
  ∀ s : State, s.BteReady →
    ∃ (o : TxOutcome) (t : State),
      exec .beginTx s = .next t ∧ o ≠ .nack ∧ waitEnds s.params.nPoll false o t.bus.line.iter ∧
      t = { s with bus := { s.bus with
        outcome := o.code
        phase := .idle
        line :=
          { iter := t.bus.line.iter
            hist := s.bus.line.hist ++ .setStart :: waitEvents .sb false o t.bus.line.iter
            lu := { s.bus.line.lu with start := true, sb := t.bus.line.lu.sb }
            env := { s.bus.line.env with polls := t.bus.line.env.polls } } } }

/-- `SEL` (R83): `H` gains the framed byte and the polls of `ADDR` and `AF`, and on `Success`, only then, `ReadSR1`
followed by `ReadSR3`, which clears the address-matched condition (R26); no stop on any path; the frame. What the LU
registers do beside the written bits and the sampled flags is the model's choice, log 4. -/
def Obligations.SelResult : Prop :=
  ∀ (s : State) (address7 : Nat) (direction : Bool), s.BteReady → address7 ≤ 127 →
    ∃ (o : TxOutcome) (v1 v3 : Nat) (t : State),
      exec (.sel address7 direction) s = .next t ∧ waitEnds s.params.nPoll true o t.bus.line.iter ∧
      t = { s with bus := { s.bus with
        a7 := BitVec.ofNat 7 address7
        dir := direction
        outcome := o.code
        phase := .idle
        line :=
          { iter := t.bus.line.iter
            hist := s.bus.line.hist ++
              .writeDr (BitVec.ofNat 8 (2 * address7 + direction.toNat)) ::
                waitEvents .addr true o t.bus.line.iter ++
              (if o = .success then [.readSr1 v1, .readSr3 v3] else [])
            lu := { s.bus.line.lu with
              dr := BitVec.ofNat 8 (2 * address7 + direction.toNat)
              addr := if o = .success then false else t.bus.line.lu.addr
              af := t.bus.line.lu.af
              sr1 := if o = .success then v1 else s.bus.line.lu.sr1
              sr3 := if o = .success then v3 else s.bus.line.lu.sr3 }
            env := { s.bus.line.env with
              polls := t.bus.line.env.polls
              statuses := t.bus.line.env.statuses } } } }

/-- R64: the first access of `SEL` writes the framed byte: numerically `2 * address7 + direction`, the address in bits
7 to 1 and the direction in bit 0. -/
def Obligations.SelFramesAddress : Prop :=
  ∀ (s t : State) (address7 : Nat) (direction : Bool), address7 ≤ 127 →
    exec (.sel address7 direction) s = .next t →
    ∃ (v : Byte) (rest : List LuEvent), t.bus.line.hist = s.bus.line.hist ++ .writeDr v :: rest ∧
      v.toNat = 2 * address7 + direction.toNat ∧
      v.extractLsb' 1 7 = BitVec.ofNat 7 address7 ∧ v.getLsbD 0 = direction

/-- `WR` (R84): the byte is written to `DR`, then the polls of `TXE` and `AF`; no stop on any path; the frame. What
the LU registers do beside the written bits and the sampled flags is the model's choice, log 4. -/
def Obligations.WrResult : Prop :=
  ∀ (s : State) (byte : Byte), s.BteReady →
    ∃ (o : TxOutcome) (t : State),
      exec (.wr byte) s = .next t ∧ waitEnds s.params.nPoll true o t.bus.line.iter ∧
      t = { s with bus := { s.bus with
        txb := byte
        outcome := o.code
        nWrOk := s.bus.nWrOk + (if o = .success then 1 else 0)
        phase := .idle
        line :=
          { iter := t.bus.line.iter
            hist := s.bus.line.hist ++ .writeDr byte :: waitEvents .txe true o t.bus.line.iter
            lu := { s.bus.line.lu with dr := byte, txe := t.bus.line.lu.txe, af := t.bus.line.lu.af }
            env := { s.bus.line.env with polls := t.bus.line.env.polls } } } }

/-- `RD` (R85): the acknowledge bit first, then the polls of `RXNE`; on `Success` the stop (for the last byte) before
the data-register read, whose byte is `RDATA`; on `Timeout` no stop and no read; never `Nack`; the frame. What the LU
registers do beside the written bits and the sampled flags is the model's choice, log 4. -/
def Obligations.RdResult : Prop :=
  ∀ (s : State) (expectMore : Bool), s.BteReady →
    ∃ (o : TxOutcome) (t : State),
      exec (.rd expectMore) s = .next t ∧ o ≠ .nack ∧ waitEnds s.params.nPoll false o t.bus.line.iter ∧
      t = { s with bus := { s.bus with
        more := expectMore
        outcome := o.code
        rdata := t.bus.rdata
        phase := .idle
        draws := t.bus.draws
        line :=
          { iter := t.bus.line.iter
            hist := s.bus.line.hist ++ .setAck expectMore :: waitEvents .rxne false o t.bus.line.iter ++
              (if o = .success then
                (if expectMore then [.readDr t.bus.rdata] else [.setStop, .readDr t.bus.rdata]) else [])
            lu := { s.bus.line.lu with
              ack := expectMore
              rxne := t.bus.line.lu.rxne
              stop := if o = .success ∧ expectMore = false then true else s.bus.line.lu.stop
              dr := if o = .success then t.bus.rdata else s.bus.line.lu.dr }
            env := { s.bus.line.env with
              polls := t.bus.line.env.polls
              bytes := t.bus.line.env.bytes } } } }

/-- `END` (R86): the stop, `Success`, and nothing else; `ITER` is not touched. What the LU registers do beside the
written bits and the sampled flags is the model's choice, log 4. -/
def Obligations.EndResult : Prop :=
  ∀ s : State, s.BteReady →
    exec .endTx s = .next { s with bus := { s.bus with
      outcome := 0
      nEnd := s.bus.nEnd + 1
      phase := .idle
      line := { s.bus.line with
        hist := s.bus.line.hist ++ [.setStop]
        lu := { s.bus.line.lu with stop := true } } } }

/-- The outcome code and `ITER` of `BEGIN`, `SEL`, `WR` and `RD` under a scripted environment are those of D26's
table, and a byte answer scripted for `RD` is what `RDATA` receives on `Success`. -/
def Obligations.PrimitivesFollowScript : Prop :=
  ∀ (s t : State) (a : WaitAnswer) (address7 : Nat) (direction expectMore : Bool) (byte v : Byte)
    (bytes : List Byte) (i : Instr),
    s.BteReady → address7 ≤ 127 → s.bus.line.env.bytes = v :: bytes →
    i = .beginTx ∨ i = .sel address7 direction ∨ i = .wr byte ∨ i = .rd expectMore →
    exec i (s.withBus (s.bus.withLine (s.bus.line.script (a.polls s.params.nPoll i.checksAf)))) = .next t →
    t.bus.outcome = (a.outcome s.params.nPoll i.checksAf).code ∧
    t.bus.line.iter = a.iter s.params.nPoll i.checksAf ∧
    t.bus.line.env.polls = s.bus.line.env.polls ∧
    (i = .rd expectMore → t.bus.outcome = 0 → t.bus.rdata = v)

/-! ### XMIT -/

/-- `XMIT` on a buffer that has its elements answers a next state, and `H` gains exactly the accesses R100 names, in
its order (R45, R101, R102, R145). The first wait that does not end in `Success` ends the operation with its outcome
and no stop: the wait of `BEGIN`; that of `SEL`, no status register having been read; or that of the `WR` of element
`IDX`. Otherwise every element is written and the stop comes last, once. After a successful `SEL` the two status
registers are read once, `SR1` first, and the address-matched condition is clear (R26). `IDX` is the number of
successful `WR` steps. Everything not named is unchanged. What the LU registers do beside the written bits and the
sampled flags is the model's choice, log 4; that `DIR` and `TXB` keep their values is read from R14, log 21. -/
def Obligations.XmitResult : Prop :=
  ∀ (s : State) (address7 : Nat) (len : Half), s.BteReady → address7 ≤ 127 →
    Memory.covers s.txbuf len.toNat = true →
    ∃ (o : TxOutcome) (gained : List LuEvent) (sent : List (Byte × Nat)) (j k v1 v3 : Nat) (t : State),
      exec (.xmit address7 len) s = .next t ∧
      t = { s with bus := { s.bus with
        a7 := BitVec.ofNat 7 address7
        len := len
        outcome := o.code
        idx := t.bus.idx
        nWrOk := s.bus.nWrOk + t.bus.idx.toNat
        nEnd := s.bus.nEnd + (if o = .success then 1 else 0)
        phase := .idle
        line :=
          { iter := t.bus.line.iter
            hist := s.bus.line.hist ++ gained
            lu := { s.bus.line.lu with
              start := true
              stop := if o = .success then true else s.bus.line.lu.stop
              dr := t.bus.line.lu.dr
              sb := t.bus.line.lu.sb
              addr := t.bus.line.lu.addr
              txe := t.bus.line.lu.txe
              af := t.bus.line.lu.af
              sr1 := t.bus.line.lu.sr1
              sr3 := t.bus.line.lu.sr3 }
            env := { s.bus.line.env with
              polls := t.bus.line.env.polls
              statuses := t.bus.line.env.statuses } } } } ∧
      waitEnds s.params.nPoll true o t.bus.line.iter ∧
      t.bus.idx.toNat = sent.length ∧ SentFrom s.params.nPoll s.txbuf 0 sent ∧
      ((o ≠ .success ∧ sent = [] ∧ gained = beginEvents o t.bus.line.iter) ∨
       (j < s.params.nPoll ∧
         ((o ≠ .success ∧ sent = [] ∧
            gained = beginEvents .success j ++
              selEvents (BitVec.ofNat 8 (2 * address7)) o t.bus.line.iter v1 v3) ∨
          (k < s.params.nPoll ∧ t.bus.line.lu.addr = false ∧
            ((o ≠ .success ∧ sent.length < len.toNat ∧
               ∃ v, Memory.read s.txbuf sent.length = some v ∧
                 gained = beginEvents .success j ++
                   selEvents (BitVec.ofNat 8 (2 * address7)) .success k v1 v3 ++ sentEvents sent ++
                   wrEvents v o t.bus.line.iter) ∨
             (o = .success ∧ sent.length = len.toNat ∧
               gained = beginEvents .success j ++
                 selEvents (BitVec.ofNat 8 (2 * address7)) .success k v1 v3 ++ sentEvents sent ++ [.setStop]))))))

/-- A peer that rejects byte `k`: `Nack`, exactly `k` successful `WR` steps, `k + 1` data bytes written, no stop
(R101). The queue that holds the peer's script is the model's choice, log 5. -/
def Obligations.XmitNackAtByte : Prop :=
  ∀ (s t : State) (address7 j j' m : Nat) (len : Half) (hits : List Nat) (rest : List Bool),
    s.BteReady → address7 ≤ 127 → Memory.covers s.txbuf len.toNat = true →
    j < s.params.nPoll → j' < s.params.nPoll → m < s.params.nPoll → (∀ k ∈ hits, k < s.params.nPoll) →
    hits.length < len.toNat →
    s.bus.line.env.polls =
      (WaitAnswer.hit j).polls s.params.nPoll false ++ (WaitAnswer.hit j').polls s.params.nPoll true ++
      (hits.map fun k => (WaitAnswer.hit k).polls s.params.nPoll true).flatten ++
      (WaitAnswer.nak m).polls s.params.nPoll true ++ rest →
    exec (.xmit address7 len) s = .next t →
    t.bus.outcome = 2 ∧ t.bus.idx.toNat = hits.length ∧ t.bus.nWrOk = s.bus.nWrOk + hits.length ∧
    t.bus.nEnd = s.bus.nEnd ∧ t.bus.line.iter = m ∧ t.bus.line.env.polls = rest ∧
    ∃ gained, t.bus.line.hist = s.bus.line.hist ++ gained ∧ .setStop ∉ gained ∧
      (writtenBytes gained).length = hits.length + 2

/-- A peer that rejects the address phase: `Nack`, zero `WR` steps, no stop, and neither status register read
(R101). The queue that holds the peer's script is the model's choice, log 5. -/
def Obligations.XmitNackAtAddress : Prop :=
  ∀ (s t : State) (address7 j m : Nat) (len : Half) (rest : List Bool),
    s.BteReady → address7 ≤ 127 → Memory.covers s.txbuf len.toNat = true →
    j < s.params.nPoll → m < s.params.nPoll →
    s.bus.line.env.polls =
      (WaitAnswer.hit j).polls s.params.nPoll false ++ (WaitAnswer.nak m).polls s.params.nPoll true ++ rest →
    exec (.xmit address7 len) s = .next t →
    t.bus.outcome = 2 ∧ t.bus.idx = 0 ∧ t.bus.nWrOk = s.bus.nWrOk ∧ t.bus.nEnd = s.bus.nEnd ∧
    t.bus.line.hist = s.bus.line.hist ++ .setStart :: waitEvents .sb false .success j ++
      .writeDr (BitVec.ofNat 8 (2 * address7)) :: waitEvents .addr true .nack m

/-- A fully cooperative peer: `Success`, `LEN` successful `WR` steps and one `END` (R101). The queue that holds the
peer's script is the model's choice, log 5. -/
def Obligations.XmitCooperativePeer : Prop :=
  ∀ (s t : State) (address7 j j' : Nat) (len : Half) (hits : List Nat) (rest : List Bool),
    s.BteReady → address7 ≤ 127 → Memory.covers s.txbuf len.toNat = true →
    j < s.params.nPoll → j' < s.params.nPoll → (∀ k ∈ hits, k < s.params.nPoll) →
    hits.length = len.toNat →
    s.bus.line.env.polls =
      (WaitAnswer.hit j).polls s.params.nPoll false ++ (WaitAnswer.hit j').polls s.params.nPoll true ++
      (hits.map fun k => (WaitAnswer.hit k).polls s.params.nPoll true).flatten ++ rest →
    exec (.xmit address7 len) s = .next t →
    t.bus.outcome = 0 ∧ t.bus.idx = len ∧ t.bus.nWrOk = s.bus.nWrOk + len.toNat ∧
    t.bus.nEnd = s.bus.nEnd + 1 ∧ t.bus.line.env.polls = rest

/-- R103: `XMIT` with `LEN` = 0, whatever the buffer holds, performs `BEGIN`, `SEL` for writing and, if both succeed,
`END`, and nothing else: no `WR` step, no `TXBUF` read; the outcome is `Success` or the failure of `BEGIN` or `SEL`. -/
def Obligations.XmitEmptyBuffer : Prop :=
  ∀ (s : State) (address7 : Nat), s.BteReady → address7 ≤ 127 →
    ∃ (o : TxOutcome) (gained : List LuEvent) (t : State),
      exec (.xmit address7 0) s = .next t ∧ t.bus.outcome = o.code ∧ t.bus.line.hist = s.bus.line.hist ++ gained ∧
      t.bus.nWrOk = s.bus.nWrOk ∧ t.bus.idx = 0 ∧ t.txbuf = s.txbuf ∧
      ((o ≠ .success ∧ ∃ j, waitEnds s.params.nPoll false o j ∧
          gained = .setStart :: waitEvents .sb false o j) ∨
       ∃ j k, waitEnds s.params.nPoll false .success j ∧ waitEnds s.params.nPoll true o k ∧
         ((o ≠ .success ∧
           gained = .setStart :: waitEvents .sb false .success j ++
             .writeDr (BitVec.ofNat 8 (2 * address7)) :: waitEvents .addr true o k) ∨
          (o = .success ∧ ∃ v1 v3,
           gained = .setStart :: waitEvents .sb false .success j ++
             .writeDr (BitVec.ofNat 8 (2 * address7)) :: waitEvents .addr true .success k ++
             [.readSr1 v1, .readSr3 v3, .setStop])))

/-- `XMIT` stops only at an element the host has not filled: a fault of `XMIT` carries a state whose element `IDX`,
below `LEN`, does not exist, and no stop was issued (R161). -/
def Obligations.XmitFaultsOnlyAtMissingElement : Prop :=
  ∀ (s : State) (address7 : Nat) (len : Half) (r : Fault), exec (.xmit address7 len) s = .fault r →
    ∃ (u : State) (gained : List LuEvent), r = .txbufElementMissing u ∧
      u.bus.idx.toNat < len.toNat ∧ Memory.read s.txbuf u.bus.idx.toNat = none ∧
      u.txbuf = s.txbuf ∧ u.ecd = s.ecd ∧ u.bus.outcome = s.bus.outcome ∧ u.bus.busy = true ∧
      u.bus.line.hist = s.bus.line.hist ++ gained ∧ .setStop ∉ gained

/-- When the peer accepts everything and element `k` of the buffer, the first that does not exist, is reached,
`XMIT` faults there: `IDX` = `k`, `k` successful `WR` steps, no stop (R161). -/
def Obligations.XmitFaultsAtMissingElement : Prop :=
  ∀ (s : State) (address7 j j' : Nat) (len : Half) (hits : List Nat) (rest : List Bool),
    s.BteReady → address7 ≤ 127 → j < s.params.nPoll → j' < s.params.nPoll →
    (∀ k ∈ hits, k < s.params.nPoll) → hits.length < len.toNat →
    Memory.covers s.txbuf hits.length = true → Memory.read s.txbuf hits.length = none →
    s.bus.line.env.polls =
      (WaitAnswer.hit j).polls s.params.nPoll false ++ (WaitAnswer.hit j').polls s.params.nPoll true ++
      (hits.map fun k => (WaitAnswer.hit k).polls s.params.nPoll true).flatten ++ rest →
    ∃ u : State, exec (.xmit address7 len) s = .fault (.txbufElementMissing u) ∧
      u.bus.idx.toNat = hits.length ∧ u.bus.nWrOk = s.bus.nWrOk + hits.length ∧ u.bus.nEnd = s.bus.nEnd

/-! ### The Edge-Capture Decoder -/

/-- R110: a run of the handler that reads the pin high writes `LOW_INT` and `LAST_RISE`; one that reads it low writes
`HIGH_INT`, `LAST_FALL` and `READY`; nothing else changes but `CNT` and `PIN`, which the environment sets (R67). -/
def Obligations.EdgeResult : Prop :=
  ∀ (s : State) (now : Half), s.ie = true → s.ctx = .fg →
    exec (.edge now true) s = .next { s with
      cnt := now
      pin := true
      ecd := { s.ecd with lowInt := now - s.ecd.lastFall, lastRise := now } } ∧
    exec (.edge now false) s = .next { s with
      cnt := now
      pin := false
      ecd := { s.ecd with highInt := now - s.ecd.lastRise, lastFall := now, ready := true } }

/-- No handler runs while `IE` = 0 or while another handler runs: nothing changes, `CNT` and `PIN` neither (R110,
R124; that the event then leaves the state as it was is the model's choice, log 10). -/
def Obligations.EdgeNotEnabledRunsNoHandler : Prop :=
  ∀ (s : State) (now : Half) (level : Bool), (s.ie = false ∨ s.ctx = .irq) →
    exec (.edge now level) s = .next s

/-- R113: the interval is the difference, plus 65536 where the counter has wrapped; of an elapsed time it is that time
modulo 65536, exact below 65536. -/
def Obligations.IntervalIsModular : Prop :=
  (∀ now t : Half,
    (t.toNat ≤ now.toNat → (interval now t).toNat = now.toNat - t.toNat) ∧
    (now.toNat < t.toNat → (interval now t).toNat = now.toNat + 65536 - t.toNat)) ∧
  (∀ start elapsed : Nat,
    (interval (BitVec.ofNat 16 (start + elapsed)) (BitVec.ofNat 16 start)).toNat = elapsed % 65536 ∧
    ((interval (BitVec.ofNat 16 (start + elapsed)) (BitVec.ofNat 16 start)).toNat = elapsed ↔ elapsed < 65536))

/-- `SAMPLE` at `READY` = 0: `MEAS` = 0, nothing else changes, `IE` untouched (R111). -/
def Obligations.SampleNotReady : Prop :=
  ∀ s : State, s.SampleReady → s.ecd.ready = false →
    exec .sample s = .next { s with ecd := { s.ecd with meas := 0 } }

/-- `SAMPLE` at `READY` = 1 with a pair that has a nonzero divisor or is invalid: the pair is copied to the snapshot,
`READY` cleared, `IE` as it was, and `MEAS` is 0 for an invalid pair and the clamped quotient otherwise (R111, R112). -/
def Obligations.SampleReadyResult : Prop :=
  ∀ s : State, s.SampleReady → s.ecd.ready = true → ¬ ZeroDivisorPair s.ecd.highInt s.ecd.lowInt →
    exec .sample s = .next { s with
      ecd := { s.ecd with
        snapH := s.ecd.highInt
        snapL := s.ecd.lowInt
        ready := false
        meas := BitVec.ofNat 16
          (if s.ecd.highInt.toNat < 2000 ∨ s.ecd.highInt.toNat + s.ecd.lowInt.toNat < 4000 then 0
           else min (5000 * (s.ecd.highInt.toNat - 2000) /
             (s.ecd.highInt.toNat + s.ecd.lowInt.toNat - 4000)) 5000) } }

/-- `SAMPLE` at the zero divisor faults, after the drain and with `IE` restored; `MEAS` is a free value (R111, R112). -/
def Obligations.SampleZeroDivisorFaults : Prop :=
  ∀ s : State, s.SampleReady → s.ecd.ready = true → ZeroDivisorPair s.ecd.highInt s.ecd.lowInt →
    s.params.zeroDivisor = .fault →
    ∃ u : State, exec .sample s = .fault (.sampleDivideByZero u) ∧
      u = { s with ecd := { s.ecd with
        snapH := s.ecd.highInt
        snapL := s.ecd.lowInt
        ready := false
        meas := u.ecd.meas
        draws := u.ecd.draws } }

/-- Under the alternative of D19 `SAMPLE` goes on at the zero divisor, with some `MEAS` in [0, 5000]. -/
def Obligations.SampleZeroDivisorDraws : Prop :=
  ∀ s : State, s.SampleReady → s.ecd.ready = true → ZeroDivisorPair s.ecd.highInt s.ecd.lowInt →
    s.params.zeroDivisor = .draw →
    ∃ t : State, exec .sample s = .next t ∧ t.ecd.meas.toNat ≤ 5000 ∧
      t = { s with ecd := { s.ecd with
        snapH := s.ecd.highInt
        snapL := s.ecd.lowInt
        ready := false
        meas := t.ecd.meas
        draws := t.ecd.draws } }

/-- `MEAS` is in [0, 5000] after every `SAMPLE` that completes (R32, R112). -/
def Obligations.MeasurementInRange : Prop :=
  ∀ s t : State, exec .sample s = .next t → t.ecd.meas.toNat ≤ 5000

/-- R117: a `SAMPLE` after a `SAMPLE`, with no handler run that reads low in between, whatever else happened, returns 0
and changes nothing but `MEAS`. -/
def Obligations.SecondSampleReturnsZero : Prop :=
  ∀ (between : List Instr) (s t u : State),
    (∀ now, .edge now false ∉ between) →
    exec .sample s = .next t →
    between.foldlM (fun x i => nextState? (exec i x)) t = some u →
    exec .sample u = .next { u with ecd := { u.ecd with meas := 0 } }

/-- `SAMPLE` is refused inside a handler and with interrupts off (R111), also where it is issued for step-by-step
execution. In the foreground with interrupts on, no `SAMPLE` runs at `BUSY` = 1 or inside another operation: it is
never concurrent with itself (R33), the command port accepts it at `BUSY` = 0 only (R39), and the foreground is
blocked (R160). That such a word waits, the step being the operation's next micro-step and the word staying next, is
the model's choice, log 14. -/
def Obligations.SampleRefused : Prop :=
  ∀ s : State,
    (s.ctx = .irq →
      exec .sample s = .refused .sampleInInterrupt ∧ issue .sample s = .refused .sampleInInterrupt) ∧
    (s.ctx = .fg → s.ie = false →
      exec .sample s = .refused .sampleWithInterruptsOff ∧ issue .sample s = .refused .sampleWithInterruptsOff) ∧
    (s.ctx = .fg → s.ie = true → s.edgePend = false → s.work ≠ .none ∨ s.bus.busy = true →
      ∀ rest, (s.trace = .traced 0x80000000 :: rest ∨ s.trace = .presented 0x80000000 :: rest ∨
        s.trace = .issued 0x80000000 :: rest) → step s = advance s)

/-! ### Rules over every operation -/

/-- No operation leaves `CTX` or `IE` other than it found them, nor touches `EDGE_PEND`, the parameters, the
operation in progress or the stimuli to come (R36, R38, R111, R128). -/
def Obligations.ExecKeepsContextAndEnable : Prop :=
  ∀ (i : Instr) (s t : State), exec i s = .next t →
    t.ctx = s.ctx ∧ t.ie = s.ie ∧ t.edgePend = s.edgePend ∧ t.params = s.params ∧ t.work = s.work ∧
    t.trace = s.trace

/-- No operation writes the transmit buffer: every element reads as before (R40). -/
def Obligations.ExecNeverWritesTxbuf : Prop :=
  ∀ (i : Instr) (s t : State), exec i s = .next t →
    t.txbuf = s.txbuf ∧ ∀ a, Memory.read t.txbuf a = Memory.read s.txbuf a

/-- R10: a BTE operation writes no ECD register, `IE`, `CNT` or `PIN` and reads none: from a state that differs only
there it answers alike. `EDGE` and `SAMPLE` write no BTE register, make no LU access, and read no BTE register. -/
def Obligations.UnitsAreDisjoint : Prop :=
  ∀ (i : Instr) (s t : State), exec i s = .next t →
    (i.isBte = true →
      t.ecd = s.ecd ∧ t.ie = s.ie ∧ t.cnt = s.cnt ∧ t.pin = s.pin ∧
      ∀ (e : Ecd) (ie : Bool) (cnt : Half) (pin : Bool),
        exec i { s with ecd := e, ie := ie, cnt := cnt, pin := pin } =
          .next { t with ecd := e, ie := ie, cnt := cnt, pin := pin }) ∧
    (i.isBte = false → t.bus = s.bus ∧ ∀ b : Bus, exec i (s.withBus b) = .next (t.withBus b))

/-- R10: a BTE operation and an ECD operation commute: the one and then the other complete in a state exactly when
the other and then the one complete in it. -/
def Obligations.UnitsCommute : Prop :=
  ∀ (i j : Instr) (s u : State), i.isBte = true → j.isBte = false →
    ((∃ t, exec i s = .next t ∧ exec j t = .next u) ↔ (∃ v, exec j s = .next v ∧ exec i v = .next u))

/-- R31: `READY` rises only at a handler run that reads low, and at every such run; it falls only at `SAMPLE`. -/
def Obligations.ReadyChangesOnlyAsStated : Prop :=
  ∀ (i : Instr) (s t : State), exec i s = .next t →
    (s.ecd.ready = false → t.ecd.ready = true → ∃ now, i = .edge now false) ∧
    (s.ecd.ready = true → t.ecd.ready = false → i = .sample) ∧
    (∀ now, i = .edge now false → s.handlerEnabled = true → t.ecd.ready = true)

/-- R90, R65: the outcomes each operation can produce: `CFG` none; `BEGIN` and `RD` never `Nack`; `END` `Success` only;
the code 3 never. -/
def Obligations.OutcomeCodes : Prop :=
  ∀ (i : Instr) (s t : State), i.isBte = true → exec i s = .next t →
    (i = .cfg → t.bus.outcome = s.bus.outcome) ∧
    (i ≠ .cfg → t.bus.outcome ≠ 3) ∧
    (i = .beginTx ∨ (∃ m, i = .rd m) → t.bus.outcome ≠ 2) ∧
    (i = .endTx → t.bus.outcome = 0)

/-- R159: every operation makes at most a bounded number of LU accesses, for every environment. -/
def Obligations.AccessesBounded : Prop :=
  ∀ (i : Instr) (s t : State), exec i s = .next t →
    ∃ gained, t.bus.line.hist = s.bus.line.hist ++ gained ∧ gained.length ≤ accessBound s.params.nPoll i

/-- R28, R140: the history only grows, and the parameters never change. -/
def Obligations.HistoryOnlyGrows : Prop :=
  ∀ s t : State, step s = .next t →
    (∃ gained, t.bus.line.hist = s.bus.line.hist ++ gained) ∧ t.params = s.params

/-! ### Reset and invariants -/

/-- The state after reset: what R143 gives, and the values R140 and R17 give. -/
def Obligations.ResetState : Prop :=
  State.reset.ecd.lastRise = 0 ∧ State.reset.ecd.lastFall = 0 ∧ State.reset.ecd.highInt = 0 ∧
  State.reset.ecd.lowInt = 0 ∧ State.reset.ecd.ready = false ∧ State.reset.bus.busy = false ∧
  State.reset.bus.phase = .idle ∧ State.reset.bus.cfgCount = 0 ∧ State.reset.bus.line.hist = [] ∧
  State.reset.bus.line.iter = 0 ∧ State.reset.ctx = .fg ∧ State.reset.ie = true ∧ State.reset.edgePend = false ∧
  State.reset.work = .none

/-- The invariants hold at reset. -/
def Obligations.InvariantsHoldAtReset : Prop :=
  TxbufCanonical State.reset ∧ BusyPhaseAgree State.reset ∧ IterWithinBudget State.reset ∧
  DividerInRange State.reset ∧ InterruptsOnOutsideSection State.reset

/-- Every step keeps the canonical form of the transmit buffer. -/
def Obligations.StepKeepsTxbufCanonical : Prop :=
  ∀ s t : State, TxbufCanonical s → step s = .next t → TxbufCanonical t

/-- Every step keeps `BUSY`, `PHASE` and the operation in progress in agreement (R18, R21). -/
def Obligations.StepKeepsBusyPhaseAgree : Prop :=
  ∀ s t : State, BusyPhaseAgree s → step s = .next t → BusyPhaseAgree t

/-- Every step keeps `ITER` within `N_POLL` (R17). -/
def Obligations.StepKeepsIterWithinBudget : Prop :=
  ∀ s t : State, BusyPhaseAgree s → IterWithinBudget s → step s = .next t → IterWithinBudget t

/-- Every step keeps the divider in [4, 4095] once a `CFG` has completed (R12). -/
def Obligations.StepKeepsDividerInRange : Prop :=
  ∀ s t : State, BusyPhaseAgree s → DividerInRange s → step s = .next t → DividerInRange t

/-- Every step keeps interrupts on outside the critical section of `SAMPLE` (R36, R48, R124). -/
def Obligations.StepKeepsInterruptsOn : Prop :=
  ∀ s t : State, InterruptsOnOutsideSection s → step s = .next t → InterruptsOnOutsideSection t

/-! ### Step-by-step execution -/

/-- An operation executed access by access ends in the state its one-step meaning gives (R21, R49). Step-by-step
execution, and what its micro-steps are, is the model's choice, log 12. -/
def Obligations.StepwiseMeetsMeaning : Prop :=
  ∀ (i : Instr) (s s1 t : State), i.isHostCommand = true → s.work = .none →
    issue i s = .next s1 → exec i s = .next t → ∃ n, advances n s1 = .next t

/-- R49, R127: a handler run between two LU accesses of a BTE operation costs it no access and no iteration: it
commutes with the next micro-step. -/
def Obligations.HandlerRunCommutesWithMicroStep : Prop :=
  ∀ (s s1 : State) (ms : List Micro) (now : Half) (level : Bool),
    s.work = .bte ms → s.ie = true → s.ctx = .fg → advance s = .next s1 →
    ∃ u v, exec (.edge now level) s = .next u ∧ advance u = .next v ∧ exec (.edge now level) s1 = .next v

/-- R49: a handler run between steps 1 and 2 of a `SAMPLE` that found `READY` gives the state of the same run before
step 1. -/
def Obligations.HandlerRunBetweenSampleSteps : Prop :=
  ∀ (s s1 u : State) (now : Half) (level : Bool),
    s.work = .sample .test → s.ecd.ready = true → s.ie = true → s.ctx = .fg →
    advance s = .next s1 → exec (.edge now level) s1 = .next u →
    ∃ v, exec (.edge now level) s = .next v ∧ advance v = .next u

/-! ### The transmit buffer -/

/-- A filled element reads as filled and every other element as before; the canonical form is kept (R41). -/
def Obligations.TxbufReadAfterFill : Prop :=
  ∀ (m : Memory) (i j : Nat) (v : Byte),
    Memory.read (Memory.write m i v) i = some v ∧
    (j ≠ i → Memory.read (Memory.write m i v) j = Memory.read m j) ∧
    (Memory.wf m = true → Memory.wf (Memory.write m i v) = true)

/-- The host's writes, made at `BUSY` = 0 by a foreground inside no operation: `CLKCORE` or `CLKBUS` takes the value
(R11); the filled element of `TXBUF` reads as filled and every other as before; a loaded buffer reads as the bytes
given, from element 0 (R41, R69); everything else is unchanged (R161). At `BUSY` = 1, or while an operation is
executed step by step, the host is blocked (R50, R160) and nothing is written. That such a write waits, the step being
the operation's next micro-step and the write staying next, is the model's choice, log 14, and so is that `CTX` is not
looked at, log 23. -/
def Obligations.HostWrites : Prop :=
  ∀ (s : State) (x : Stimulus) (rest : List Stimulus),
    s.servesEdge = false → s.trace = x :: rest → x.isHostWrite = true →
    (s.work ≠ .none ∨ s.bus.busy = true → step s = advance s) ∧
    (s.bus.busy = false → s.work = .none →
      (∀ hz, x = .setClkCore hz →
        step s = .next { s with bus := { s.bus with clkCore := hz }, trace := rest }) ∧
      (∀ hz, x = .setClkBus hz →
        step s = .next { s with bus := { s.bus with clkBus := hz }, trace := rest }) ∧
      (∀ index v, x = .fillTxbuf index v →
        ∃ t : State, step s = .next t ∧ t = { s with txbuf := t.txbuf, trace := rest } ∧
          Memory.read t.txbuf index.toNat = some v ∧
          ∀ a, a ≠ index.toNat → Memory.read t.txbuf a = Memory.read s.txbuf a) ∧
      (∀ bytes, x = .loadTxbuf bytes →
        ∃ t : State, step s = .next t ∧ t = { s with txbuf := t.txbuf, trace := rest } ∧
          ∀ a, Memory.read t.txbuf a = bytes[a]?))
end

