-- ==== Sys2Proof/Laws/Accept.lean ====
section
/-! SUPPORT. When a command is accepted, and what an operation that answers a next state can have changed
(40_bus_primitives.md R87, 42_edge_capture.md R110, R111). -/

namespace Sys2Proof.Machine

theorem acceptBte_ready {s : State} (h : s.BteReady) (run : Bus → Result) :
    acceptBte s run = run { s.bus with busy := true, phase := .issue } := by
  obtain ⟨h1, h2⟩ := h
  simp [acceptBte, h1, h2]

theorem acceptBte_next {s t : State} {run : Bus → Result} (h : acceptBte s run = .next t) :
    s.BteReady ∧ run { s.bus with busy := true, phase := .issue } = .next t := by
  unfold acceptBte at h
  split at h
  · cases h
  · split at h
    · cases h
    · rename_i h1 h2
      refine ⟨⟨by simpa using h1, ?_⟩, h⟩
      cases hc : s.ctx <;> simp_all

theorem acceptSample_ready {s : State} (h : s.SampleReady) (run : State → Result) : acceptSample s run = run s := by
  obtain ⟨h1, h2⟩ := h
  simp [acceptSample, h1, h2]

theorem acceptSample_next {s t : State} {run : State → Result} (h : acceptSample s run = .next t) :
    s.SampleReady ∧ run s = .next t := by
  unfold acceptSample at h
  split at h
  · cases h
  · split at h
    · cases h
    · rename_i h1 h2
      refine ⟨⟨?_, by simpa using h2⟩, h⟩
      cases hc : s.ctx <;> simp_all

/-- A BTE operation that answers a next state was ready and changed the BTE only. -/
theorem bte_next {i : Instr} {s t : State} (hi : i.isBte = true) (h : exec i s = .next t) :
    s.BteReady ∧ ∃ b, t = s.withBus b := by
  cases i <;> simp [Instr.isBte] at hi <;>
    simp only [exec, execCfg, execBegin, execSel, execWr, execRd, execEnd, execXmit] at h <;>
    obtain ⟨hr, h⟩ := acceptBte_next h <;> refine ⟨hr, ?_⟩
  · split at h
    · cases h
    · injection h with h; exact ⟨_, h.symm⟩
  · injection h with h; exact ⟨_, h.symm⟩
  · split at h
    · cases h
    · injection h with h; exact ⟨_, h.symm⟩
  · injection h with h; exact ⟨_, h.symm⟩
  · injection h with h; exact ⟨_, h.symm⟩
  · injection h with h; exact ⟨_, h.symm⟩
  · split at h
    · cases h
    · simp only [xmitEnd] at h
      split at h
      · injection h with h; exact ⟨_, h.symm⟩
      · split at h
        · injection h with h; exact ⟨_, h.symm⟩
        · cases h

/-- `EDGE` runs the handler once, or, where it is not enabled, changes nothing. -/
theorem edge_next {now : Half} {level : Bool} {s t : State} (h : exec (.edge now level) s = .next t) :
    (t = s ∧ s.handlerEnabled = false) ∨
    (s.ie = true ∧ s.ctx = .fg ∧
      t = { s with cnt := now, pin := level, ecd := captureEdge now level s.ecd }) := by
  simp only [exec, execEdge] at h
  split at h
  · rename_i he
    right
    simp [State.handlerEnabled] at he
    injection h with h
    refine ⟨he.1, he.2, ?_⟩
    subst h
    simp [runEdgeHandler, takeInterrupt, interruptReturn, interruptEnter, edgeBody, State.withEcd, he.2]
  · left
    injection h with h
    exact ⟨h.symm, by simp_all⟩

/-- `SAMPLE` that answers a next state was ready and changed the ECD only; `READY` is 0 and the capture is kept. -/
theorem sample_next {s t : State} (h : exec .sample s = .next t) :
    s.SampleReady ∧ ∃ e, t = s.withEcd e ∧ e.ready = false ∧ e.lastRise = s.ecd.lastRise ∧
      e.lastFall = s.ecd.lastFall ∧ e.highInt = s.ecd.highInt ∧ e.lowInt = s.ecd.lowInt := by
  simp only [exec, execSample] at h
  obtain ⟨hr, h⟩ := acceptSample_next h
  refine ⟨hr, ?_⟩
  split at h
  · unfold measureSnapshot at h
    split at h
    · injection h with h; subst h; exact ⟨_, rfl, rfl, rfl, rfl, rfl, rfl⟩
    · split at h
      · cases h
      · injection h with h; subst h; exact ⟨_, rfl, rfl, rfl, rfl, rfl, rfl⟩
  · rename_i hn
    injection h with h
    subst h
    exact ⟨_, rfl, by simpa using hn, rfl, rfl, rfl, rfl⟩

end Sys2Proof.Machine
end

