-- ==== Sys2Proof/Laws/Memory.lean ====
section
/-! SUPPORT. The transmit buffer: read after write, and every operation keeps the canonical form. -/

namespace Sys2Proof.Machine

@[simp] theorem Memory.read_write_self (m : Memory) (i : Nat) (v : Byte) :
    Memory.read (Memory.write m i v) i = some v := by
  induction m with
  | nil => simp [Memory.write, Memory.read]
  | cons c m ih =>
    obtain ⟨j, u⟩ := c
    simp only [Memory.write]
    split_ifs <;> simp_all [Memory.read]

theorem Memory.read_write_other (m : Memory) (i j : Nat) (v : Byte) (h : j ≠ i) :
    Memory.read (Memory.write m i v) j = Memory.read m j := by
  induction m with
  | nil => simp [Memory.write, Memory.read, h]
  | cons c m ih =>
    obtain ⟨k, u⟩ := c
    simp only [Memory.write]
    split_ifs <;> simp_all [Memory.read]

theorem Memory.wf_cons (i : Nat) (v : Byte) (m : Memory) :
    Memory.wf ((i, v) :: m) = true ↔ (∀ c ∈ m.head?, i < c.1) ∧ Memory.wf m = true := by
  cases m with
  | nil => simp [Memory.wf]
  | cons c m => obtain ⟨j, u⟩ := c; simp [Memory.wf]

theorem Memory.write_head (m : Memory) (i : Nat) (v : Byte) :
    ∀ c ∈ (Memory.write m i v).head?, c.1 = i ∨ ∃ d ∈ m.head?, c.1 = d.1 := by
  cases m with
  | nil => simp [Memory.write]
  | cons c m => obtain ⟨j, u⟩ := c; simp only [Memory.write]; split_ifs <;> simp

/-- Filling one element keeps the canonical form. -/
theorem Memory.wf_write (m : Memory) (i : Nat) (v : Byte) (h : Memory.wf m = true) :
    Memory.wf (Memory.write m i v) = true := by
  induction m with
  | nil => rfl
  | cons c m ih =>
    obtain ⟨j, u⟩ := c
    rw [Memory.wf_cons] at h
    simp only [Memory.write]
    split_ifs with h1 h2
    · rw [Memory.wf_cons, Memory.wf_cons]; exact ⟨by simpa using h1, h⟩
    · subst h2; rw [Memory.wf_cons]; exact h
    · rw [Memory.wf_cons]
      refine ⟨fun c hc => ?_, ih h.2⟩
      rcases Memory.write_head m i v c hc with e | ⟨d, hd, e⟩
      · omega
      · rw [e]; exact h.1 d hd

/-- Filling the buffer from a byte list gives the canonical form. -/
theorem Memory.wf_ofBytes (bytes : List Byte) : ∀ i : Nat, Memory.wf (Memory.ofBytes i bytes) = true := by
  induction bytes with
  | nil => exact fun _ => rfl
  | cons v bytes ih =>
    intro i
    rw [Memory.ofBytes, Memory.wf_cons]
    refine ⟨?_, ih _⟩
    cases bytes <;> simp [Memory.ofBytes]

/-- What a filled buffer holds: element `j` is byte `j - i` of the list. -/
theorem Memory.read_ofBytes (bytes : List Byte) : ∀ i j : Nat,
    Memory.read (Memory.ofBytes i bytes) j = if j < i then none else bytes[j - i]? := by
  induction bytes with
  | nil => intro i j; simp [Memory.ofBytes, Memory.read]
  | cons v bytes ih =>
    intro i j
    rw [Memory.ofBytes, Memory.read, ih]
    by_cases h1 : j = i
    · subst h1; simp
    · by_cases h2 : j < i
      · simp [h1, h2, show j < i + 1 by omega]
      · simp only [h1, h2, if_false, show ¬ j < i + 1 by omega]
        rw [show j - i = (j - (i + 1)) + 1 by omega, List.getElem?_cons_succ]

/-- A buffer that covers `0` to `n - 1` has each of these elements. -/
theorem Memory.covers_read {m : Memory} {n j : Nat} (h : Memory.covers m n = true) (hj : j < n) :
    (Memory.read m j).isSome = true := by
  induction n with
  | zero => omega
  | succ n ih =>
    simp only [Memory.covers, Bool.and_eq_true] at h
    by_cases e : j = n
    · subst e; exact h.2
    · exact ih h.1 (by omega)

end Sys2Proof.Machine
end

