-- ==== Sys2Proof/Laws/Wait.lean ====
section
/-! SUPPORT. The LU flags and the bounded wait (40_bus_primitives.md R80): everything a wait can do, said once. -/

namespace Sys2Proof.Machine

/-! ### Flags -/

@[simp] theorem luFlag_luWithFlag (l : Lu) (v : Bool) (f g : LuFlag) :
    luFlag (luWithFlag l v f) g = if g = f then v else luFlag l g := by
  cases f <;> cases g <;> rfl

@[simp] theorem luWithFlag_twice (l : Lu) (u v : Bool) (f : LuFlag) :
    luWithFlag (luWithFlag l u f) v f = luWithFlag l v f := by
  cases f <;> rfl

theorem luWithFlag_comm (l : Lu) (u v : Bool) {f g : LuFlag} (h : f ≠ g) :
    luWithFlag (luWithFlag l u f) v g = luWithFlag (luWithFlag l v g) u f := by
  cases f <;> cases g <;> first | rfl | exact absurd rfl h

@[simp] theorem luWithFlag_self (l : Lu) (f : LuFlag) : luWithFlag l (luFlag l f) f = l := by
  cases f <;> rfl

/-! ### The accesses of a wait -/

/-- The accesses of one unsuccessful iteration. -/
def missedIteration (f : LuFlag) (checkAf : Bool) : List LuEvent :=
  if checkAf then [.poll f false, .poll .af false] else [.poll f false]

theorem missedIterations_succ (f : LuFlag) (checkAf : Bool) (k : Nat) :
    missedIterations f checkAf (k + 1) = missedIteration f checkAf ++ missedIterations f checkAf k := by
  simp [missedIterations, missedIteration, List.replicate_succ]

theorem waitEvents_succ (f : LuFlag) (checkAf : Bool) (o : TxOutcome) (k : Nat) :
    waitEvents f checkAf o (k + 1) = missedIteration f checkAf ++ waitEvents f checkAf o k := by
  cases o <;> simp [waitEvents, missedIterations_succ]

theorem waitEnds_succ {n : Nat} {checkAf : Bool} {o : TxOutcome} {k : Nat} (h : waitEnds n checkAf o k) :
    waitEnds (n + 1) checkAf o (k + 1) := by
  cases o <;> simp_all [waitEnds]

theorem waitEnds_le {n : Nat} {checkAf : Bool} {o : TxOutcome} {k : Nat} (h : waitEnds n checkAf o k) : k ≤ n := by
  cases o <;> simp [waitEnds] at h <;> omega

/-- A wait that does not check `AF` never ends in `Nack`. -/
theorem waitEnds_not_nack {n : Nat} {o : TxOutcome} {k : Nat} (h : waitEnds n false o k) : o ≠ .nack := by
  rintro rfl
  simp [waitEnds] at h

theorem writtenBytes_append (a b : List LuEvent) : writtenBytes (a ++ b) = writtenBytes a ++ writtenBytes b := by
  induction a with
  | nil => rfl
  | cons e a ih => cases e <;> simp [writtenBytes, ih]

/-- A wait writes no byte. -/
@[simp] theorem writtenBytes_waitEvents (f : LuFlag) (checkAf : Bool) (o : TxOutcome) (k : Nat) :
    writtenBytes (waitEvents f checkAf o k) = [] := by
  have hm : writtenBytes (missedIterations f checkAf k) = [] := by
    induction k with
    | zero => rfl
    | succ k ih => rw [missedIterations_succ, writtenBytes_append, ih]; cases checkAf <;> rfl
  cases o <;> simp [waitEvents, writtenBytes_append, hm, writtenBytes]

/-- A wait issues no stop. -/
@[simp] theorem setStop_not_mem_waitEvents (f : LuFlag) (checkAf : Bool) (o : TxOutcome) (k : Nat) :
    .setStop ∉ waitEvents f checkAf o k := by
  have hm : .setStop ∉ missedIterations f checkAf k := by
    induction k with
    | zero => simp [missedIterations]
    | succ k ih => rw [missedIterations_succ]; cases checkAf <;> simp [missedIteration, ih]
  cases o <;> simp [waitEvents, hm]

/-- A wait makes at most `2 * N_POLL + 1` accesses. -/
theorem length_waitEvents {n : Nat} {checkAf : Bool} {o : TxOutcome} {k : Nat} (f : LuFlag)
    (h : waitEnds n checkAf o k) : (waitEvents f checkAf o k).length ≤ 2 * n + 1 := by
  have hm : (missedIterations f checkAf k).length ≤ 2 * k := by
    clear h
    induction k with
    | zero => simp [missedIterations]
    | succ k ih => rw [missedIterations_succ]; cases checkAf <;> simp [missedIteration] <;> omega
  cases o <;> simp [waitEnds] at h <;> simp [waitEvents] <;> omega

/-! ### The loop -/

/-- The LU after some samples of `f` and, where it is checked, of `AF`. -/
def luSampled (l : Lu) (f : LuFlag) (checkAf x y : Bool) : Lu :=
  if checkAf then luWithFlag (luWithFlag l x f) y .af else luWithFlag l x f

theorem luSampled_none (l : Lu) (f : LuFlag) (checkAf : Bool) : ∃ x y, l = luSampled l f checkAf x y := by
  refine ⟨luFlag l f, luFlag l .af, ?_⟩
  unfold luSampled
  split <;> simp

theorem luSampled_twice (l : Lu) (f : LuFlag) (checkAf x y x' y' : Bool) :
    luSampled (luSampled l f checkAf x y) f checkAf x' y' = luSampled l f checkAf x' y' := by
  cases checkAf
  · simp [luSampled]
  · by_cases h : f = .af
    · subst h
      simp [luSampled]
    · simp only [luSampled, if_true]
      rw [luWithFlag_comm _ y x' (Ne.symm h), luWithFlag_twice, luWithFlag_twice]

/-- Everything the loop of `PollWait` can do from any point of a wait, `n` iterations being left. -/
theorem pollLoop_spec (f : LuFlag) (checkAf : Bool) : ∀ (n : Nat) (l : Line),
    ∃ (o : TxOutcome) (k : Nat) (x y : Bool) (polls : List Bool),
      waitEnds n checkAf o k ∧ (o = .nack → y = false) ∧
      pollLoop f checkAf n l = (o,
        { iter := l.iter + k
          hist := l.hist ++ waitEvents f checkAf o k
          lu := luSampled l.lu f checkAf x y
          env := { l.env with polls := polls } }) := by
  intro n
  induction n with
  | zero =>
    intro l
    obtain ⟨x, y, h⟩ := luSampled_none l.lu f checkAf
    exact ⟨.timeout, 0, x, y, l.env.polls, rfl, by simp, by simp [pollLoop, waitEvents, missedIterations, ← h]⟩
  | succ n ih =>
    intro l
    by_cases h1 : pollAnswer f l = true
    · obtain ⟨x, y, h⟩ : ∃ x y, luWithFlag l.lu true f = luSampled l.lu f checkAf x y := by
        cases checkAf
        · exact ⟨true, true, by simp [luSampled]⟩
        · exact ⟨true, luFlag (luWithFlag l.lu true f) .af, by simp [luSampled, -luFlag_luWithFlag]⟩
      exact ⟨.success, 0, x, y, l.env.polls.tail, by simp [waitEnds], by simp,
        by simp [pollLoop, h1, waitEvents, missedIterations, ← h, luPoll, Line.record]⟩
    · simp only [Bool.not_eq_true] at h1
      cases checkAf
      · obtain ⟨o, k, x, y, polls, he, hy, hp⟩ := ih ((luPoll f l).withIter (l.iter + 1))
        have hl := luSampled_twice l.lu f false false false x y
        refine ⟨o, k + 1, x, y, polls, waitEnds_succ he, hy, ?_⟩
        simp only [pollLoop, h1, Bool.false_eq_true, if_false]
        rw [hp, waitEvents_succ, ← hl]
        simp [Line.withIter, missedIteration, luPoll, Line.record, h1, luSampled]
        omega
      · by_cases h2 : pollAnswer .af (luPoll f l) = true
        · refine ⟨.nack, 0, false, false, l.env.polls.tail.tail, by simp [waitEnds], by simp, ?_⟩
          simp only [pollLoop, h1, h2, if_true, Bool.false_eq_true, if_false]
          simp [waitEvents, missedIterations, luSampled, luClearAf, Line.record, luPoll, h1]
          simpa [luPoll, Line.record, h1] using h2
        · simp only [Bool.not_eq_true] at h2
          obtain ⟨o, k, x, y, polls, he, hy, hp⟩ := ih ((luPoll .af (luPoll f l)).withIter (l.iter + 1))
          have hl := luSampled_twice l.lu f true false false x y
          refine ⟨o, k + 1, x, y, polls, waitEnds_succ he, hy, ?_⟩
          simp only [pollLoop, h1, h2, if_true, Bool.false_eq_true, if_false]
          rw [hp, waitEvents_succ, ← hl]
          simp [Line.withIter, missedIteration]
          simp [luPoll, Line.record, h1] at h2
          simp [luPoll, Line.record, h1, h2, luSampled]
          omega

/-- A whole wait is the loop from `ITER` = 0. -/
theorem pollWait_eq (n : Nat) (f : LuFlag) (checkAf : Bool) (l : Line) :
    pollWait n f checkAf l = pollLoop f checkAf n (l.withIter 0) := rfl

end Sys2Proof.Machine
end

