-- ==== Sys2Proof/Laws/Bodies.lean ====
section
/-! SUPPORT. Everything the bodies of `BEGIN`, `SEL`, `WR` and the loop of `XMIT` can do, said once each
(40_bus_primitives.md R82 to R84, 41_bus_composite.md R100). -/

namespace Sys2Proof.Machine

theorem pollWait_spec (n : Nat) (f : LuFlag) (checkAf : Bool) (l : Line) :
    ∃ (o : TxOutcome) (k : Nat) (x y : Bool) (polls : List Bool),
      waitEnds n checkAf o k ∧
      pollWait n f checkAf l = (o,
        { iter := k
          hist := l.hist ++ waitEvents f checkAf o k
          lu := luSampled l.lu f checkAf x y
          env := { l.env with polls := polls } }) := by
  obtain ⟨o, k, x, y, polls, he, -, hp⟩ := pollLoop_spec f checkAf n (l.withIter 0)
  exact ⟨o, k, x, y, polls, he, by simpa [pollWait, Line.withIter] using hp⟩

theorem beginBody_spec (n : Nat) (l : Line) :
    ∃ (o : TxOutcome) (k : Nat) (x : Bool) (polls : List Bool), waitEnds n false o k ∧
      beginBody n l = (o,
        { iter := k
          hist := l.hist ++ beginEvents o k
          lu := { l.lu with start := true, sb := x }
          env := { l.env with polls := polls } }) := by
  obtain ⟨o, k, x, y, polls, he, hp⟩ := pollWait_spec n .sb false (luSetStart l)
  refine ⟨o, k, x, polls, he, ?_⟩
  rw [beginBody, hp]
  simp [beginEvents, luSetStart, Line.record, luSampled, luWithFlag]

theorem selBody_spec (n : Nat) (a : BitVec 7) (d : Bool) (l : Line) :
    ∃ (o : TxOutcome) (k : Nat) (x y : Bool) (v1 v3 : Nat) (polls : List Bool) (statuses : List Nat),
      waitEnds n true o k ∧
      selBody n a d l = (o,
        { iter := k
          hist := l.hist ++ selEvents (frameByte a d) o k v1 v3
          lu := { l.lu with
            dr := frameByte a d
            addr := if o = .success then false else x
            af := y
            sr1 := if o = .success then v1 else l.lu.sr1
            sr3 := if o = .success then v3 else l.lu.sr3 }
          env := { l.env with polls := polls, statuses := statuses } }) := by
  obtain ⟨o, k, x, y, polls, he, hp⟩ := pollWait_spec n .addr true (luWriteDr (frameByte a d) l)
  simp only [selBody, hp]
  generalize hl : (Line.mk k _ _ _) = l'
  by_cases ho : o = .success
  · subst ho
    simp only [if_true]
    refine ⟨.success, k, x, y, statusAnswer Config.luSr1 l', statusAnswer Config.luSr3 (luReadSr1 l'), polls,
      l.env.statuses.tail.tail, he, ?_⟩
    subst hl
    simp [selEvents, luReadSr3, luReadSr1, luWriteDr, Line.record, luSampled, luWithFlag]
  · simp only [ho, if_false]
    refine ⟨o, k, x, y, 0, 0, polls, l.env.statuses, he, ?_⟩
    subst hl
    simp [selEvents, luWriteDr, Line.record, luSampled, luWithFlag, ho]

theorem wrBody_spec (n : Nat) (v : Byte) (b : Bus) :
    ∃ (o : TxOutcome) (k : Nat) (x y : Bool) (polls : List Bool), waitEnds n true o k ∧
      wrBody n v b = (o, { b with
        nWrOk := b.nWrOk + (if o = .success then 1 else 0)
        line :=
          { iter := k
            hist := b.line.hist ++ wrEvents v o k
            lu := { b.line.lu with dr := v, txe := x, af := y }
            env := { b.line.env with polls := polls } } }) := by
  obtain ⟨o, k, x, y, polls, he, hp⟩ := pollWait_spec n .txe true (luWriteDr v b.line)
  refine ⟨o, k, x, y, polls, he, ?_⟩
  simp only [wrBody, hp]
  split_ifs with ho <;> simp [ho, wrEvents, countWr, Bus.withLine, luWriteDr, Line.record, luSampled, luWithFlag]

/-! ### The loop of `XMIT` -/

theorem setStop_not_mem_wrEvents (v : Byte) (o : TxOutcome) (k : Nat) : .setStop ∉ wrEvents v o k := by
  simp [wrEvents]

theorem setStop_not_mem_sentEvents (sent : List (Byte × Nat)) : .setStop ∉ sentEvents sent := by
  simp [sentEvents, wrEvents]

theorem writtenBytes_sentEvents (sent : List (Byte × Nat)) : writtenBytes (sentEvents sent) = sent.map (·.1) := by
  induction sent with
  | nil => rfl
  | cons p sent ih =>
    simp only [sentEvents, List.map_cons, List.flatten_cons, writtenBytes_append] at ih ⊢
    rw [ih]
    simp [wrEvents, writtenBytes]

theorem length_wrEvents {n : Nat} {o : TxOutcome} {k : Nat} (v : Byte) (h : waitEnds n true o k) :
    (wrEvents v o k).length ≤ 1 + (2 * n + 1) := by
  have := length_waitEvents .txe h
  simp only [wrEvents, List.length_cons]
  omega

theorem length_sentEvents {n : Nat} {sent : List (Byte × Nat)} (h : ∀ p ∈ sent, p.2 < n) :
    (sentEvents sent).length ≤ sent.length * (1 + (2 * n + 1)) := by
  induction sent with
  | nil => simp [sentEvents]
  | cons p sent ih =>
    have h1 := length_wrEvents (o := .success) p.1 (h p (by simp))
    have h2 := ih fun q hq => h q (by simp [hq])
    simp only [sentEvents, List.map_cons, List.flatten_cons, List.length_append, List.length_cons,
      Nat.succ_mul] at h2 ⊢
    omega

theorem SentFrom.nil (nPoll : Nat) (m : Memory) (first : Nat) : SentFrom nPoll m first [] := ⟨rfl, by simp⟩

theorem SentFrom.cons {nPoll : Nat} {m : Memory} {first k : Nat} {v : Byte} {sent : List (Byte × Nat)}
    (hv : Memory.read m first = some v) (hk : k < nPoll) (h : SentFrom nPoll m (first + 1) sent) :
    SentFrom nPoll m first ((v, k) :: sent) := by
  refine ⟨?_, ?_⟩
  · simp [h.1, hv, List.range_succ_eq_map, Function.comp_def, Nat.add_assoc, Nat.add_comm 1]
  · intro p hp
    rcases List.mem_cons.mp hp with rfl | hp
    · exact hk
    · exact h.2 p hp

/-- How the loop of `XMIT` ended after the successful `WR` steps `sent`, with `n` bytes to go from element `first`:
the accesses it made. -/
def LoopEnd (nPoll : Nat) (m : Memory) (first n iterBefore k : Nat) (sent : List (Byte × Nat))
    (gained : List LuEvent) : Option TxOutcome → Prop
  | some .success =>
    sent.length = n ∧ (waitEnds nPoll true .success iterBefore → waitEnds nPoll true .success k) ∧
      gained = sentEvents sent
  | some o =>
    sent.length < n ∧ waitEnds nPoll true o k ∧
      ∃ v, Memory.read m (first + sent.length) = some v ∧ gained = sentEvents sent ++ wrEvents v o k
  | none =>
    sent.length < n ∧ Memory.read m (first + sent.length) = none ∧ gained = sentEvents sent

/-- One more successful `WR` step in front. -/
theorem LoopEnd.cons {nPoll : Nat} {m : Memory} {first n k k' i : Nat} {v : Byte} {sent : List (Byte × Nat)}
    {gained : List LuEvent} {r : Option TxOutcome} (hk : k < nPoll)
    (h : LoopEnd nPoll m (first + 1) n k k' sent gained r) :
    LoopEnd nPoll m first (n + 1) i k' ((v, k) :: sent) (wrEvents v .success k ++ gained) r := by
  have hf : first + (sent.length + 1) = first + 1 + sent.length := by omega
  match r, h with
  | some .success, h => exact ⟨by simp [h.1], fun _ => h.2.1 hk, by simp [sentEvents, h.2.2]⟩
  | some .timeout, ⟨h1, h2, u, h3, h4⟩ =>
    exact ⟨by simpa using h1, h2, u, by simpa [hf] using h3, by simp [sentEvents, h4]⟩
  | some .nack, ⟨h1, h2, u, h3, h4⟩ =>
    exact ⟨by simpa using h1, h2, u, by simpa [hf] using h3, by simp [sentEvents, h4]⟩
  | none, ⟨h1, h2, h3⟩ =>
    exact ⟨by simpa using h1, by simpa [hf] using h2, by simp [sentEvents, h3]⟩

theorem xmitBytes_spec (nPoll : Nat) (m : Memory) : ∀ (n : Nat) (b : Bus), b.idx.toNat + n < 65536 →
    ∃ (r : Option TxOutcome) (k : Nat) (sent : List (Byte × Nat)) (gained : List LuEvent) (d : Byte) (x y : Bool)
      (polls : List Bool),
      xmitBytes nPoll m n b = (r, { b with
        idx := b.idx + BitVec.ofNat 16 sent.length
        nWrOk := b.nWrOk + sent.length
        line :=
          { iter := k
            hist := b.line.hist ++ gained
            lu := { b.line.lu with dr := d, txe := x, af := y }
            env := { b.line.env with polls := polls } } }) ∧
      SentFrom nPoll m b.idx.toNat sent ∧ LoopEnd nPoll m b.idx.toNat n b.line.iter k sent gained r := by
  intro n
  induction n with
  | zero =>
    intro b _
    exact ⟨some .success, b.line.iter, [], [], b.line.lu.dr, b.line.lu.txe, b.line.lu.af, b.line.env.polls,
      by simp [xmitBytes], SentFrom.nil _ _ _, rfl, id, rfl⟩
  | succ n ih =>
    intro b hb
    cases hr : Memory.read m b.idx.toNat with
    | none =>
      exact ⟨none, b.line.iter, [], [], b.line.lu.dr, b.line.lu.txe, b.line.lu.af, b.line.env.polls,
        by simp [xmitBytes, hr], SentFrom.nil _ _ _, by simp, by simpa using hr, rfl⟩
    | some v =>
      obtain ⟨o, k, x, y, polls, he, hw⟩ := wrBody_spec nPoll v b
      by_cases ho : o = .success
      · subst ho
        simp only [xmitBytes, hr, hw, if_true]
        generalize hb1 : stepIdx _ = b1
        have hidx : b1.idx.toNat = b.idx.toNat + 1 := by subst hb1; simp [stepIdx]; omega
        obtain ⟨r, k', sent, gained, d, x', y', polls', hx, hs, hm⟩ := ih b1 (by omega)
        rw [hx]
        refine ⟨r, k', (v, k) :: sent, wrEvents v .success k ++ gained, d, x', y', polls', ?_, ?_, ?_⟩
        · subst hb1
          simp [stepIdx]
          refine ⟨BitVec.eq_of_toNat_eq ?_, by omega⟩
          simp
          omega
        · exact SentFrom.cons hr he (by rw [← hidx]; exact hs)
        · refine LoopEnd.cons he ?_
          rw [← hidx]
          subst hb1
          exact hm
      · simp only [xmitBytes, hr, hw, ho, if_false]
        refine ⟨some o, k, [], wrEvents v o k, v, x, y, polls, by simp, SentFrom.nil _ _ _, ?_⟩
        cases o with
        | success => exact absurd rfl ho
        | timeout => exact ⟨by simp, he, v, by simpa using hr, by simp [sentEvents]⟩
        | nack => exact ⟨by simp, he, v, by simpa using hr, by simp [sentEvents]⟩

end Sys2Proof.Machine
end

