-- ==== Sys2Proof/Laws/Encoding.lean ====
section
/-! SUPPORT. The fields of a stimulus word, and what the rows of the opcode table select. -/

namespace Sys2Proof

theorem packWord_toNat (o : BitVec 4) (f : Bool) (b : Byte) (h : Half) :
    (packWord o f b h).toNat = o.toNat * 2 ^ 28 + f.toNat * 2 ^ 24 + b.toNat * 2 ^ 16 + h.toNat := by
  unfold packWord
  rw [BitVec.toNat_append, BitVec.toNat_append, BitVec.toNat_append, BitVec.toNat_append,
    ← Nat.shiftLeft_add_eq_or_of_lt h.isLt, ← Nat.shiftLeft_add_eq_or_of_lt b.isLt,
    ← Nat.shiftLeft_add_eq_or_of_lt (BitVec.ofBool f).isLt, ← Nat.shiftLeft_add_eq_or_of_lt (0#3).isLt]
  simp [Nat.shiftLeft_eq]
  omega

theorem opcOf_toNat (w : Word) : (opcOf w).toNat = w.toNat / 2 ^ 28 := by
  have := w.isLt
  simp [opcOf, Nat.shiftRight_eq_div_pow]
  omega

theorem zOf_toNat (w : Word) : (zOf w).toNat = w.toNat / 2 ^ 25 % 8 := by
  simp [zOf, Nat.shiftRight_eq_div_pow]

theorem fOf_toNat (w : Word) : (fOf w).toNat = w.toNat / 2 ^ 24 % 2 := by
  simp [fOf, BitVec.getElem_eq_testBit_toNat, Nat.testBit_eq_decide_div_mod_eq]
  have : w.toNat / 16777216 % 2 = 0 ∨ w.toNat / 16777216 % 2 = 1 := by omega
  rcases this with h | h <;> simp [h]

theorem bOf_toNat (w : Word) : (bOf w).toNat = w.toNat / 2 ^ 16 % 256 := by
  simp [bOf, Nat.shiftRight_eq_div_pow]

theorem hwOf_toNat (w : Word) : (hwOf w).toNat = w.toNat % 65536 := by
  simp [hwOf]

/-- A word is its five fields. -/
theorem word_toNat (w : Word) :
    w.toNat = (opcOf w).toNat * 2 ^ 28 + (zOf w).toNat * 2 ^ 25 + (fOf w).toNat * 2 ^ 24 +
      (bOf w).toNat * 2 ^ 16 + (hwOf w).toNat := by
  rw [opcOf_toNat, zOf_toNat, fOf_toNat, bOf_toNat, hwOf_toNat]
  omega

theorem word_ext {v w : Word} (h1 : opcOf v = opcOf w) (h2 : zOf v = zOf w) (h3 : fOf v = fOf w)
    (h4 : bOf v = bOf w) (h5 : hwOf v = hwOf w) : v = w := by
  apply BitVec.eq_of_toNat_eq
  rw [word_toNat v, word_toNat w, h1, h2, h3, h4, h5]

@[simp] theorem opcOf_packWord (o : BitVec 4) (f : Bool) (b : Byte) (h : Half) :
    opcOf (packWord o f b h) = o := by
  apply BitVec.eq_of_toNat_eq
  have := f.toNat_lt; have := b.isLt; have := h.isLt
  rw [opcOf_toNat, packWord_toNat]
  omega

@[simp] theorem zOf_packWord (o : BitVec 4) (f : Bool) (b : Byte) (h : Half) :
    zOf (packWord o f b h) = 0 := by
  apply BitVec.eq_of_toNat_eq
  have := f.toNat_lt; have := b.isLt; have := h.isLt
  rw [zOf_toNat, packWord_toNat]
  simp
  omega

@[simp] theorem fOf_packWord (o : BitVec 4) (f : Bool) (b : Byte) (h : Half) :
    fOf (packWord o f b h) = f := by
  have := f.toNat_lt; have := b.isLt; have := h.isLt
  have e : (fOf (packWord o f b h)).toNat = f.toNat := by rw [fOf_toNat, packWord_toNat]; omega
  revert e
  cases f <;> cases fOf (packWord o _ b h) <;> simp

@[simp] theorem bOf_packWord (o : BitVec 4) (f : Bool) (b : Byte) (h : Half) :
    bOf (packWord o f b h) = b := by
  apply BitVec.eq_of_toNat_eq
  have := f.toNat_lt; have := b.isLt; have := h.isLt
  rw [bOf_toNat, packWord_toNat]
  omega

@[simp] theorem hwOf_packWord (o : BitVec 4) (f : Bool) (b : Byte) (h : Half) :
    hwOf (packWord o f b h) = h := by
  apply BitVec.eq_of_toNat_eq
  have := f.toNat_lt; have := b.isLt; have := h.isLt
  rw [hwOf_toNat, packWord_toNat]
  omega

theorem packWord_fields (w : Word) (hz : zOf w = 0) : packWord (opcOf w) (fOf w) (bOf w) (hwOf w) = w := by
  apply BitVec.eq_of_toNat_eq
  rw [packWord_toNat, word_toNat w, hz]
  simp

theorem liveOnly_ok {z : Bool} {i j : Instr} (h : liveOnly z i = .ok j) : z = true ∧ i = j := by
  unfold liveOnly at h
  split at h <;> simp_all

/-- A row is selected field by field. -/
theorem selects_fields (r : OpcodeRow) (w : Word) :
    r.selects w = true ↔
      opcOf w &&& opcOf r.mask = opcOf r.pattern ∧ zOf w &&& zOf r.mask = zOf r.pattern ∧
      (fOf w && fOf r.mask) = fOf r.pattern ∧ bOf w &&& bOf r.mask = bOf r.pattern ∧
      hwOf w &&& hwOf r.mask = hwOf r.pattern := by
  have e1 : opcOf (w &&& r.mask) = opcOf w &&& opcOf r.mask := BitVec.extractLsb'_and
  have e2 : zOf (w &&& r.mask) = zOf w &&& zOf r.mask := BitVec.extractLsb'_and
  have e3 : fOf (w &&& r.mask) = (fOf w && fOf r.mask) := BitVec.getLsbD_and
  have e4 : bOf (w &&& r.mask) = bOf w &&& bOf r.mask := BitVec.extractLsb'_and
  have e5 : hwOf (w &&& r.mask) = hwOf w &&& hwOf r.mask := BitVec.extractLsb'_and
  rw [← e1, ← e2, ← e3, ← e4, ← e5]
  simp only [OpcodeRow.selects, beq_iff_eq]
  exact ⟨fun h => by rw [h]; simp, fun ⟨a, b, c, d, e⟩ => word_ext a b c d e⟩

/-- `B AND 0x80 = 0` says that `B` is a 7-bit address (30_encoding.md R61). -/
theorem byte_and_80 (b : Byte) : b &&& 0x80#8 = 0#8 ↔ b.toNat < 128 := by
  revert b; decide

end Sys2Proof
end

