-- ==== Sys2Proof/Laws/Operands.lean ====
section
/-! SUPPORT. The values computed from operands, as numbers. -/

namespace Sys2Proof.Machine

/-- The framed byte as a number (30_encoding.md R64). -/
theorem frameByte_eq (a : Nat) (d : Bool) :
    frameByte (BitVec.ofNat 7 a) d = BitVec.ofNat 8 (2 * a + d.toNat) := by
  apply BitVec.eq_of_toNat_eq
  unfold frameByte
  rw [BitVec.toNat_append, ← Nat.shiftLeft_add_eq_or_of_lt (BitVec.ofBool d).isLt]
  cases d <;> simp [Nat.shiftLeft_eq] <;> omega

/-- Clamping leaves nothing to wrap (40_bus_primitives.md R81). -/
theorem ccrValue_toNat (kind : DivRaw) (core bus : Word) :
    (ccrValue kind core bus).toNat = min (max (divRaw kind core.toNat bus.toNat) 4) 4095 := by
  simp [ccrValue, clamp]

theorem triseValue_toNat (core : Word) : (triseValue core).toNat = core.toNat / 1000000 + 1 := by
  have := core.isLt
  simp [triseValue]
  omega

/-- `Measure` in one expression: no value exactly at the zero divisor (42_edge_capture.md R112). -/
theorem measurePair_eq (h l : Half) :
    measurePair h l = if ZeroDivisorPair h l then none else
      some (if h.toNat < 2000 ∨ h.toNat + l.toNat < 4000 then 0
        else min (5000 * (h.toNat - 2000) / (h.toNat + l.toNat - 4000)) 5000) := by
  unfold measurePair ZeroDivisorPair
  repeat' split
  all_goals first | rfl | omega

theorem code_ne_three (o : TxOutcome) : o.code ≠ 3 := by cases o <;> decide

theorem code_injective {o p : TxOutcome} (h : o.code = p.code) : o = p := by
  revert h
  cases o <;> cases p <;> decide

end Sys2Proof.Machine
end

