-- ==== Sys2Proof/Laws/PerInstr.lean ====
section
/-! SUPPORT. A law of every operation, one lemma per constructor: its word selects its row of the opcode table
(30_encoding.md R62). -/

namespace Sys2Proof.Laws.RowSelected

/-- The word of a well-formed operation selects the operation's row. -/
def Statement (i : Instr) : Prop := i.wf = true → i.row.selects (encode i) = true

theorem cfg : Statement .cfg := fun _ => by decide

theorem beginTx : Statement .beginTx := fun _ => by decide

theorem sel (address7 : Nat) (direction : Bool) : Statement (.sel address7 direction) := by
  intro h
  simp only [Instr.wf, decide_eq_true_eq] at h
  rw [selects_fields]
  simp only [encode, Instr.row, opcOf_packWord, zOf_packWord, fOf_packWord, bOf_packWord, hwOf_packWord]
  refine ⟨by decide, by decide, by cases direction <;> decide, ?_, by decide⟩
  exact (byte_and_80 _).2 (by simp; omega)

theorem wr (byte : Byte) : Statement (.wr byte) := by
  intro _
  rw [selects_fields]
  simp only [encode, Instr.row, opcOf_packWord, zOf_packWord, fOf_packWord, bOf_packWord, hwOf_packWord]
  exact ⟨by decide, by decide, by decide, by revert byte; decide, by decide⟩

theorem rd (expectMore : Bool) : Statement (.rd expectMore) := fun _ => by cases expectMore <;> decide

theorem endTx : Statement .endTx := fun _ => by decide

theorem xmit (address7 : Nat) (length : Half) : Statement (.xmit address7 length) := by
  intro h
  simp only [Instr.wf, decide_eq_true_eq] at h
  rw [selects_fields]
  simp only [encode, Instr.row, opcOf_packWord, zOf_packWord, fOf_packWord, bOf_packWord, hwOf_packWord]
  refine ⟨by decide, by decide, by decide, ?_, ?_⟩
  · exact (byte_and_80 _).2 (by simp; omega)
  · exact BitVec.and_zero

theorem sample : Statement .sample := fun _ => by decide

theorem edge (now : Half) (level : Bool) : Statement (.edge now level) := by
  intro _
  rw [selects_fields]
  simp only [encode, Instr.row, opcOf_packWord, zOf_packWord, fOf_packWord, bOf_packWord, hwOf_packWord]
  exact ⟨by decide, by decide, by cases level <;> decide, by decide, BitVec.and_zero⟩

end Sys2Proof.Laws.RowSelected
end

