-- ==== Sys2Proof/Laws/State.lean ====
section
/-! SUPPORT. One lemma per field per update of the state, each by `rfl`. -/

namespace Sys2Proof.Machine

/-! ### `State.withBus` -/

@[simp] theorem State.withBus_params (x : State) (b : Bus) : (x.withBus b).params = x.params := rfl
@[simp] theorem State.withBus_bus (x : State) (b : Bus) : (x.withBus b).bus = b := rfl
@[simp] theorem State.withBus_ecd (x : State) (b : Bus) : (x.withBus b).ecd = x.ecd := rfl
@[simp] theorem State.withBus_ie (x : State) (b : Bus) : (x.withBus b).ie = x.ie := rfl
@[simp] theorem State.withBus_ctx (x : State) (b : Bus) : (x.withBus b).ctx = x.ctx := rfl
@[simp] theorem State.withBus_cnt (x : State) (b : Bus) : (x.withBus b).cnt = x.cnt := rfl
@[simp] theorem State.withBus_pin (x : State) (b : Bus) : (x.withBus b).pin = x.pin := rfl
@[simp] theorem State.withBus_edgePend (x : State) (b : Bus) : (x.withBus b).edgePend = x.edgePend := rfl
@[simp] theorem State.withBus_txbuf (x : State) (b : Bus) : (x.withBus b).txbuf = x.txbuf := rfl
@[simp] theorem State.withBus_work (x : State) (b : Bus) : (x.withBus b).work = x.work := rfl
@[simp] theorem State.withBus_trace (x : State) (b : Bus) : (x.withBus b).trace = x.trace := rfl

/-! ### `State.withEcd` -/

@[simp] theorem State.withEcd_params (x : State) (e : Ecd) : (x.withEcd e).params = x.params := rfl
@[simp] theorem State.withEcd_bus (x : State) (e : Ecd) : (x.withEcd e).bus = x.bus := rfl
@[simp] theorem State.withEcd_ecd (x : State) (e : Ecd) : (x.withEcd e).ecd = e := rfl
@[simp] theorem State.withEcd_ie (x : State) (e : Ecd) : (x.withEcd e).ie = x.ie := rfl
@[simp] theorem State.withEcd_ctx (x : State) (e : Ecd) : (x.withEcd e).ctx = x.ctx := rfl
@[simp] theorem State.withEcd_cnt (x : State) (e : Ecd) : (x.withEcd e).cnt = x.cnt := rfl
@[simp] theorem State.withEcd_pin (x : State) (e : Ecd) : (x.withEcd e).pin = x.pin := rfl
@[simp] theorem State.withEcd_edgePend (x : State) (e : Ecd) : (x.withEcd e).edgePend = x.edgePend := rfl
@[simp] theorem State.withEcd_txbuf (x : State) (e : Ecd) : (x.withEcd e).txbuf = x.txbuf := rfl
@[simp] theorem State.withEcd_work (x : State) (e : Ecd) : (x.withEcd e).work = x.work := rfl
@[simp] theorem State.withEcd_trace (x : State) (e : Ecd) : (x.withEcd e).trace = x.trace := rfl

/-! ### `criticalOpen` -/

@[simp] theorem criticalOpen_params (x : State) : (criticalOpen x).params = x.params := rfl
@[simp] theorem criticalOpen_bus (x : State) : (criticalOpen x).bus = x.bus := rfl
@[simp] theorem criticalOpen_ecd (x : State) : (criticalOpen x).ecd = x.ecd := rfl
@[simp] theorem criticalOpen_ie (x : State) : (criticalOpen x).ie = false := rfl
@[simp] theorem criticalOpen_ctx (x : State) : (criticalOpen x).ctx = x.ctx := rfl
@[simp] theorem criticalOpen_cnt (x : State) : (criticalOpen x).cnt = x.cnt := rfl
@[simp] theorem criticalOpen_pin (x : State) : (criticalOpen x).pin = x.pin := rfl
@[simp] theorem criticalOpen_edgePend (x : State) : (criticalOpen x).edgePend = x.edgePend := rfl
@[simp] theorem criticalOpen_txbuf (x : State) : (criticalOpen x).txbuf = x.txbuf := rfl
@[simp] theorem criticalOpen_work (x : State) : (criticalOpen x).work = x.work := rfl
@[simp] theorem criticalOpen_trace (x : State) : (criticalOpen x).trace = x.trace := rfl

/-! ### `criticalClose` -/

@[simp] theorem criticalClose_params (x : State) (saved : Bool) : (criticalClose saved x).params = x.params := rfl
@[simp] theorem criticalClose_bus (x : State) (saved : Bool) : (criticalClose saved x).bus = x.bus := rfl
@[simp] theorem criticalClose_ecd (x : State) (saved : Bool) : (criticalClose saved x).ecd = x.ecd := rfl
@[simp] theorem criticalClose_ie (x : State) (saved : Bool) : (criticalClose saved x).ie = saved := rfl
@[simp] theorem criticalClose_ctx (x : State) (saved : Bool) : (criticalClose saved x).ctx = x.ctx := rfl
@[simp] theorem criticalClose_cnt (x : State) (saved : Bool) : (criticalClose saved x).cnt = x.cnt := rfl
@[simp] theorem criticalClose_pin (x : State) (saved : Bool) : (criticalClose saved x).pin = x.pin := rfl
@[simp] theorem criticalClose_edgePend (x : State) (saved : Bool) : (criticalClose saved x).edgePend = x.edgePend := rfl
@[simp] theorem criticalClose_txbuf (x : State) (saved : Bool) : (criticalClose saved x).txbuf = x.txbuf := rfl
@[simp] theorem criticalClose_work (x : State) (saved : Bool) : (criticalClose saved x).work = x.work := rfl
@[simp] theorem criticalClose_trace (x : State) (saved : Bool) : (criticalClose saved x).trace = x.trace := rfl

/-! ### `interruptEnter` -/

@[simp] theorem interruptEnter_params (x : State) : (interruptEnter x).params = x.params := rfl
@[simp] theorem interruptEnter_bus (x : State) : (interruptEnter x).bus = x.bus := rfl
@[simp] theorem interruptEnter_ecd (x : State) : (interruptEnter x).ecd = x.ecd := rfl
@[simp] theorem interruptEnter_ie (x : State) : (interruptEnter x).ie = x.ie := rfl
@[simp] theorem interruptEnter_ctx (x : State) : (interruptEnter x).ctx = .irq := rfl
@[simp] theorem interruptEnter_cnt (x : State) : (interruptEnter x).cnt = x.cnt := rfl
@[simp] theorem interruptEnter_pin (x : State) : (interruptEnter x).pin = x.pin := rfl
@[simp] theorem interruptEnter_edgePend (x : State) : (interruptEnter x).edgePend = x.edgePend := rfl
@[simp] theorem interruptEnter_txbuf (x : State) : (interruptEnter x).txbuf = x.txbuf := rfl
@[simp] theorem interruptEnter_work (x : State) : (interruptEnter x).work = x.work := rfl
@[simp] theorem interruptEnter_trace (x : State) : (interruptEnter x).trace = x.trace := rfl

/-! ### `interruptReturn` -/

@[simp] theorem interruptReturn_params (x : State) : (interruptReturn x).params = x.params := rfl
@[simp] theorem interruptReturn_bus (x : State) : (interruptReturn x).bus = x.bus := rfl
@[simp] theorem interruptReturn_ecd (x : State) : (interruptReturn x).ecd = x.ecd := rfl
@[simp] theorem interruptReturn_ie (x : State) : (interruptReturn x).ie = x.ie := rfl
@[simp] theorem interruptReturn_ctx (x : State) : (interruptReturn x).ctx = .fg := rfl
@[simp] theorem interruptReturn_cnt (x : State) : (interruptReturn x).cnt = x.cnt := rfl
@[simp] theorem interruptReturn_pin (x : State) : (interruptReturn x).pin = x.pin := rfl
@[simp] theorem interruptReturn_edgePend (x : State) : (interruptReturn x).edgePend = x.edgePend := rfl
@[simp] theorem interruptReturn_txbuf (x : State) : (interruptReturn x).txbuf = x.txbuf := rfl
@[simp] theorem interruptReturn_work (x : State) : (interruptReturn x).work = x.work := rfl
@[simp] theorem interruptReturn_trace (x : State) : (interruptReturn x).trace = x.trace := rfl

/-! ### `Bus.withLine` -/

@[simp] theorem Bus.withLine_clkCore (x : Bus) (l : Line) : (x.withLine l).clkCore = x.clkCore := rfl
@[simp] theorem Bus.withLine_clkBus (x : Bus) (l : Line) : (x.withLine l).clkBus = x.clkBus := rfl
@[simp] theorem Bus.withLine_ccr (x : Bus) (l : Line) : (x.withLine l).ccr = x.ccr := rfl
@[simp] theorem Bus.withLine_trise (x : Bus) (l : Line) : (x.withLine l).trise = x.trise := rfl
@[simp] theorem Bus.withLine_a7 (x : Bus) (l : Line) : (x.withLine l).a7 = x.a7 := rfl
@[simp] theorem Bus.withLine_dir (x : Bus) (l : Line) : (x.withLine l).dir = x.dir := rfl
@[simp] theorem Bus.withLine_txb (x : Bus) (l : Line) : (x.withLine l).txb = x.txb := rfl
@[simp] theorem Bus.withLine_more (x : Bus) (l : Line) : (x.withLine l).more = x.more := rfl
@[simp] theorem Bus.withLine_len (x : Bus) (l : Line) : (x.withLine l).len = x.len := rfl
@[simp] theorem Bus.withLine_outcome (x : Bus) (l : Line) : (x.withLine l).outcome = x.outcome := rfl
@[simp] theorem Bus.withLine_rdata (x : Bus) (l : Line) : (x.withLine l).rdata = x.rdata := rfl
@[simp] theorem Bus.withLine_busy (x : Bus) (l : Line) : (x.withLine l).busy = x.busy := rfl
@[simp] theorem Bus.withLine_phase (x : Bus) (l : Line) : (x.withLine l).phase = x.phase := rfl
@[simp] theorem Bus.withLine_idx (x : Bus) (l : Line) : (x.withLine l).idx = x.idx := rfl
@[simp] theorem Bus.withLine_cfgCount (x : Bus) (l : Line) : (x.withLine l).cfgCount = x.cfgCount := rfl
@[simp] theorem Bus.withLine_nWrOk (x : Bus) (l : Line) : (x.withLine l).nWrOk = x.nWrOk := rfl
@[simp] theorem Bus.withLine_nEnd (x : Bus) (l : Line) : (x.withLine l).nEnd = x.nEnd := rfl
@[simp] theorem Bus.withLine_line (x : Bus) (l : Line) : (x.withLine l).line = l := rfl
@[simp] theorem Bus.withLine_draws (x : Bus) (l : Line) : (x.withLine l).draws = x.draws := rfl

/-! ### `Bus.withPhase` -/

@[simp] theorem Bus.withPhase_clkCore (x : Bus) (p : Phase) : (x.withPhase p).clkCore = x.clkCore := rfl
@[simp] theorem Bus.withPhase_clkBus (x : Bus) (p : Phase) : (x.withPhase p).clkBus = x.clkBus := rfl
@[simp] theorem Bus.withPhase_ccr (x : Bus) (p : Phase) : (x.withPhase p).ccr = x.ccr := rfl
@[simp] theorem Bus.withPhase_trise (x : Bus) (p : Phase) : (x.withPhase p).trise = x.trise := rfl
@[simp] theorem Bus.withPhase_a7 (x : Bus) (p : Phase) : (x.withPhase p).a7 = x.a7 := rfl
@[simp] theorem Bus.withPhase_dir (x : Bus) (p : Phase) : (x.withPhase p).dir = x.dir := rfl
@[simp] theorem Bus.withPhase_txb (x : Bus) (p : Phase) : (x.withPhase p).txb = x.txb := rfl
@[simp] theorem Bus.withPhase_more (x : Bus) (p : Phase) : (x.withPhase p).more = x.more := rfl
@[simp] theorem Bus.withPhase_len (x : Bus) (p : Phase) : (x.withPhase p).len = x.len := rfl
@[simp] theorem Bus.withPhase_outcome (x : Bus) (p : Phase) : (x.withPhase p).outcome = x.outcome := rfl
@[simp] theorem Bus.withPhase_rdata (x : Bus) (p : Phase) : (x.withPhase p).rdata = x.rdata := rfl
@[simp] theorem Bus.withPhase_busy (x : Bus) (p : Phase) : (x.withPhase p).busy = x.busy := rfl
@[simp] theorem Bus.withPhase_phase (x : Bus) (p : Phase) : (x.withPhase p).phase = p := rfl
@[simp] theorem Bus.withPhase_idx (x : Bus) (p : Phase) : (x.withPhase p).idx = x.idx := rfl
@[simp] theorem Bus.withPhase_cfgCount (x : Bus) (p : Phase) : (x.withPhase p).cfgCount = x.cfgCount := rfl
@[simp] theorem Bus.withPhase_nWrOk (x : Bus) (p : Phase) : (x.withPhase p).nWrOk = x.nWrOk := rfl
@[simp] theorem Bus.withPhase_nEnd (x : Bus) (p : Phase) : (x.withPhase p).nEnd = x.nEnd := rfl
@[simp] theorem Bus.withPhase_line (x : Bus) (p : Phase) : (x.withPhase p).line = x.line := rfl
@[simp] theorem Bus.withPhase_draws (x : Bus) (p : Phase) : (x.withPhase p).draws = x.draws := rfl

/-! ### `release` -/

@[simp] theorem release_clkCore (x : Bus) : (release x).clkCore = x.clkCore := rfl
@[simp] theorem release_clkBus (x : Bus) : (release x).clkBus = x.clkBus := rfl
@[simp] theorem release_ccr (x : Bus) : (release x).ccr = x.ccr := rfl
@[simp] theorem release_trise (x : Bus) : (release x).trise = x.trise := rfl
@[simp] theorem release_a7 (x : Bus) : (release x).a7 = x.a7 := rfl
@[simp] theorem release_dir (x : Bus) : (release x).dir = x.dir := rfl
@[simp] theorem release_txb (x : Bus) : (release x).txb = x.txb := rfl
@[simp] theorem release_more (x : Bus) : (release x).more = x.more := rfl
@[simp] theorem release_len (x : Bus) : (release x).len = x.len := rfl
@[simp] theorem release_outcome (x : Bus) : (release x).outcome = x.outcome := rfl
@[simp] theorem release_rdata (x : Bus) : (release x).rdata = x.rdata := rfl
@[simp] theorem release_busy (x : Bus) : (release x).busy = false := rfl
@[simp] theorem release_phase (x : Bus) : (release x).phase = .idle := rfl
@[simp] theorem release_idx (x : Bus) : (release x).idx = x.idx := rfl
@[simp] theorem release_cfgCount (x : Bus) : (release x).cfgCount = x.cfgCount := rfl
@[simp] theorem release_nWrOk (x : Bus) : (release x).nWrOk = x.nWrOk := rfl
@[simp] theorem release_nEnd (x : Bus) : (release x).nEnd = x.nEnd := rfl
@[simp] theorem release_line (x : Bus) : (release x).line = x.line := rfl
@[simp] theorem release_draws (x : Bus) : (release x).draws = x.draws := rfl

/-! ### `complete` -/

@[simp] theorem complete_clkCore (x : Bus) (o : TxOutcome) : (complete o x).clkCore = x.clkCore := rfl
@[simp] theorem complete_clkBus (x : Bus) (o : TxOutcome) : (complete o x).clkBus = x.clkBus := rfl
@[simp] theorem complete_ccr (x : Bus) (o : TxOutcome) : (complete o x).ccr = x.ccr := rfl
@[simp] theorem complete_trise (x : Bus) (o : TxOutcome) : (complete o x).trise = x.trise := rfl
@[simp] theorem complete_a7 (x : Bus) (o : TxOutcome) : (complete o x).a7 = x.a7 := rfl
@[simp] theorem complete_dir (x : Bus) (o : TxOutcome) : (complete o x).dir = x.dir := rfl
@[simp] theorem complete_txb (x : Bus) (o : TxOutcome) : (complete o x).txb = x.txb := rfl
@[simp] theorem complete_more (x : Bus) (o : TxOutcome) : (complete o x).more = x.more := rfl
@[simp] theorem complete_len (x : Bus) (o : TxOutcome) : (complete o x).len = x.len := rfl
@[simp] theorem complete_outcome (x : Bus) (o : TxOutcome) : (complete o x).outcome = o.code := rfl
@[simp] theorem complete_rdata (x : Bus) (o : TxOutcome) : (complete o x).rdata = x.rdata := rfl
@[simp] theorem complete_busy (x : Bus) (o : TxOutcome) : (complete o x).busy = false := rfl
@[simp] theorem complete_phase (x : Bus) (o : TxOutcome) : (complete o x).phase = .idle := rfl
@[simp] theorem complete_idx (x : Bus) (o : TxOutcome) : (complete o x).idx = x.idx := rfl
@[simp] theorem complete_cfgCount (x : Bus) (o : TxOutcome) : (complete o x).cfgCount = x.cfgCount := rfl
@[simp] theorem complete_nWrOk (x : Bus) (o : TxOutcome) : (complete o x).nWrOk = x.nWrOk := rfl
@[simp] theorem complete_nEnd (x : Bus) (o : TxOutcome) : (complete o x).nEnd = x.nEnd := rfl
@[simp] theorem complete_line (x : Bus) (o : TxOutcome) : (complete o x).line = x.line := rfl
@[simp] theorem complete_draws (x : Bus) (o : TxOutcome) : (complete o x).draws = x.draws := rfl

/-! ### `Line.record` -/

@[simp] theorem Line.record_iter (x : Line) (e : LuEvent) : (x.record e).iter = x.iter := rfl
@[simp] theorem Line.record_lu (x : Line) (e : LuEvent) : (x.record e).lu = x.lu := rfl
@[simp] theorem Line.record_env (x : Line) (e : LuEvent) : (x.record e).env = x.env := rfl
@[simp] theorem Line.record_hist (x : Line) (e : LuEvent) : (x.record e).hist = x.hist ++ [e] := rfl

/-! ### `Line.withIter` -/

@[simp] theorem Line.withIter_iter (x : Line) (i : Nat) : (x.withIter i).iter = i := rfl
@[simp] theorem Line.withIter_lu (x : Line) (i : Nat) : (x.withIter i).lu = x.lu := rfl
@[simp] theorem Line.withIter_env (x : Line) (i : Nat) : (x.withIter i).env = x.env := rfl
@[simp] theorem Line.withIter_hist (x : Line) (i : Nat) : (x.withIter i).hist = x.hist := rfl

/-! ### Whole updates -/

/-- The drain of `SAMPLE` leaves `IE` as it found it (42_edge_capture.md R111). -/
theorem drain_eq (s : State) :
    drain s = { s with ecd := { s.ecd with snapH := s.ecd.highInt, snapL := s.ecd.lowInt, ready := false } } := rfl

/-- A handler run leaves `IE` alone and returns to the foreground (60_exceptions.md R128). -/
theorem runEdgeHandler_eq (s : State) (h : s.ctx = .fg) :
    runEdgeHandler s = { s with ecd := captureEdge s.cnt s.pin s.ecd } := by
  simp [runEdgeHandler, takeInterrupt, interruptReturn, interruptEnter, edgeBody, State.withEcd, h]

end Sys2Proof.Machine
end

