-- ==== Sys2Proof/Laws/Step.lean ====
section
/-! SUPPORT. Everything one step can do, said once: the service of a pending edge, or one stimulus; and what the
stimuli that execute an operation step by step can do. -/

namespace Sys2Proof.Machine

/-! ### The foreground's moves -/

theorem foregroundFree_iff {s : State} : s.foregroundFree = true ↔ s.work = .none ∧ s.bus.busy = false := by
  simp [State.foregroundFree]

/-- A free foreground makes its move. -/
theorem foregroundMove_free {s : State} (h : s.foregroundFree = true) (x : Stimulus) (r : Result) :
    foregroundMove x s r = r := if_pos h

/-- A foreground inside an operation makes that operation's next micro-step, where no refusal is due. -/
theorem foregroundMove_waits {s : State} (h : s.foregroundFree = false) (x : Stimulus) {r : Result}
    (hr : ∀ q, r ≠ .refused q) : foregroundMove x s r = advance { s with trace := x :: s.trace } := by
  unfold foregroundMove
  simp only [h, Bool.false_eq_true, if_false]
  cases r with
  | next t => rfl
  | fault f => rfl
  | refused q => exact absurd rfl (hr q)

/-- A refusal that is due is given, the foreground being free or not. -/
theorem foregroundMove_refused (x : Stimulus) (s : State) (q : Refusal) :
    foregroundMove x s (.refused q) = .refused q := by
  unfold foregroundMove
  split <;> rfl

theorem foregroundMove_next {x : Stimulus} {s t : State} {r : Result} (h : foregroundMove x s r = .next t) :
    (s.work = .none ∧ s.bus.busy = false ∧ r = .next t) ∨ advance { s with trace := x :: s.trace } = .next t := by
  unfold foregroundMove at h
  split at h
  · rename_i hf
    obtain ⟨hw, hb⟩ := foregroundFree_iff.mp hf
    exact .inl ⟨hw, hb, h⟩
  · split at h
    · cases h
    · exact .inr h
    · exact .inr h

/-- What a stimulus that answers `t` did to `s`. -/
inductive Effect (s t : State) : Prop where
  /-- it ran an operation, a host command only in a free foreground -/
  | ran (i : Instr) (free : i.isHostCommand = true → s.work = .none ∧ s.bus.busy = false) (h : exec i s = .next t)
  /-- it issued an operation -/
  | began (i : Instr) (free : s.work = .none) (h : issue i s = .next t)
  /-- it made a micro-step, the stimulus being taken or staying next -/
  | moved (trace : List Stimulus) (h : advance { s with trace := trace } = .next t)
  /-- it wrote a clock operand -/
  | clocks (core bus : Word) (idle : s.bus.busy = false) (free : s.work = .none)
      (h : t = s.withBus { s.bus with clkCore := core, clkBus := bus })
  /-- it filled the transmit buffer -/
  | filled (m : Memory) (wf : Memory.wf s.txbuf = true → Memory.wf m = true) (idle : s.bus.busy = false)
      (free : s.work = .none) (h : t = { s with txbuf := m })
  /-- it was a move of the environment -/
  | environment (cnt : Half) (pin edgePend : Bool) (ctx : Ctx) (lu : Lu)
      (h : t = { s with
        cnt := cnt
        pin := pin
        edgePend := edgePend
        ctx := ctx
        bus := s.bus.withLine { s.bus.line with lu := lu } })

/-- A host command of either kind of word. -/
theorem Effect.of_command {x : Stimulus} {i : Instr} {s t : State} (h : foregroundMove x s (exec i s) = .next t) :
    Effect s t := by
  obtain ⟨hw, hb, h⟩ | h := foregroundMove_next h
  · exact .ran i (fun _ => ⟨hw, hb⟩) h
  · exact .moved _ h

/-- A host write that was made, or that waits. -/
theorem Effect.of_hostWrite {x : Stimulus} {s u t : State} (h : hostWrite x s u = .next t)
    (made : s.bus.busy = false → s.work = .none → t = u → Effect s t) : Effect s t := by
  obtain ⟨hw, hb, h⟩ | h := foregroundMove_next h
  · injection h with h
    exact made hb hw h.symm
  · exact .moved _ h

theorem apply_next {x : Stimulus} {s t : State} (h : apply x s = .next t) : Effect s t := by
  cases x <;> simp only [apply] at h
  case traced w =>
    unfold runTraced at h
    split at h
    · split at h
      · exact .of_command h
      · rename_i hi
        exact .ran _ (fun hc => absurd hc hi) h
    · cases h
  case presented w =>
    unfold runPresented at h
    split at h
    · split at h
      · exact .of_command h
      · cases h
    · cases h
  case issued w =>
    unfold runIssued at h
    split at h
    · obtain ⟨hw, -, h⟩ | h := foregroundMove_next h
      · exact .began _ hw h
      · exact .moved _ h
    · cases h
  case advance => exact .moved s.trace h
  case setClkCore hz => exact .of_hostWrite h fun hb hw e => .clocks hz s.bus.clkBus hb hw e
  case setClkBus hz => exact .of_hostWrite h fun hb hw e => .clocks s.bus.clkCore hz hb hw e
  case fillTxbuf i v => exact .of_hostWrite h fun hb hw e => .filled _ (Memory.wf_write _ _ _) hb hw e
  case loadTxbuf bytes => exact .of_hostWrite h fun hb hw e => .filled _ (fun _ => Memory.wf_ofBytes _ _) hb hw e
  case drive c p =>
    injection h with h; exact .environment c p s.edgePend s.ctx s.bus.line.lu (by rw [← h]; rfl)
  case signalEdge =>
    injection h with h; exact .environment s.cnt s.pin true s.ctx s.bus.line.lu (by rw [← h]; rfl)
  case luMoves lu =>
    injection h with h; exact .environment s.cnt s.pin s.edgePend s.ctx lu (by rw [← h]; rfl)
  case otherHandlerEnters =>
    split at h
    · injection h with h; exact .environment s.cnt s.pin s.edgePend .irq s.bus.line.lu (by rw [← h]; rfl)
    · injection h with h; exact .environment s.cnt s.pin s.edgePend s.ctx s.bus.line.lu (by rw [← h]; rfl)
  case otherHandlerReturns =>
    injection h with h; exact .environment s.cnt s.pin s.edgePend .fg s.bus.line.lu (by rw [← h]; rfl)

theorem fetch_some {s s' : State} {x : Stimulus} (h : s.fetch = some (x, s')) :
    ∃ rest, s.trace = x :: rest ∧ s' = { s with trace := rest } := by
  unfold State.fetch at h
  split at h
  · cases h
  · rename_i e
    injection h with h
    injection h with h1 h2
    subst h1
    exact ⟨_, e, h2.symm⟩

/-- One step: the block waits, serves the pending edge, or takes one stimulus. -/
theorem step_next {s t : State} (h : step s = .next t) :
    (s.trace = [] ∧ t = s) ∨
    (s.ctx = .fg ∧ s.ie = true ∧ t = { s with edgePend := false, ecd := captureEdge s.cnt s.pin s.ecd }) ∨
    ∃ x rest, s.trace = x :: rest ∧ Effect { s with trace := rest } t := by
  unfold step at h
  split at h
  · rename_i he
    right; left
    injection h with h
    simp [State.servesEdge, State.handlerEnabled] at he
    refine ⟨he.2.2, he.2.1, ?_⟩
    rw [← h]
    simp [serveEdge, runEdgeHandler, takeInterrupt, interruptReturn, interruptEnter, edgeBody, State.withEcd,
      he.2.2]
  · split at h
    · rename_i hf
      left
      injection h with h
      refine ⟨?_, h.symm⟩
      cases ht : s.trace with
      | nil => rfl
      | cons x rest => simp [State.fetch, ht] at hf
    · rename_i x s' hf
      right; right
      obtain ⟨rest, ht, rfl⟩ := fetch_some hf
      exact ⟨x, rest, ht, apply_next h⟩

/-- One micro-step of an operation in progress. -/
theorem advance_next {s t : State} (h : advance s = .next t) :
    t = s ∨ (s.work = .bte [] ∧ t = { s with work := .none }) ∨
    (∃ m rest rest' b, s.ctx = .fg ∧ s.work = .bte (m :: rest) ∧
      microStep s.params s.txbuf rest s.bus m = .more rest' b ∧ t = { s.withBus b with work := .bte rest' }) ∨
    (∃ m rest b, s.ctx = .fg ∧ s.work = .bte (m :: rest) ∧
      microStep s.params s.txbuf rest s.bus m = .done b ∧ t = { s.withBus b with work := .none }) ∨
    (∃ stage, s.ctx = .fg ∧ s.work = .sample stage ∧ advanceSample stage s = .next t) := by
  unfold advance at h
  split at h
  · left; injection h with h; exact h.symm
  · rename_i hc
    have hc : s.ctx = .fg := by cases h : s.ctx <;> simp_all
    split at h
    · left; injection h with h; exact h.symm
    · rename_i hw
      right; left; injection h with h; exact ⟨hw, h.symm⟩
    · rename_i m rest hw
      unfold advanceBte at h
      split at h
      · rename_i r' b hm
        injection h with h
        exact .inr (.inr (.inl ⟨m, rest, r', b, hc, hw, hm, h.symm⟩))
      · rename_i b hm
        injection h with h
        exact .inr (.inr (.inr (.inl ⟨m, rest, b, hc, hw, hm, h.symm⟩)))
      · cases h
    · rename_i stage hw
      exact .inr (.inr (.inr (.inr ⟨stage, hc, hw, h⟩)))

/-- A step of `SAMPLE` leaves the BTE, the parameters and the transmit buffer alone. -/
theorem advanceSample_next {stage : SampleStage} {s t : State} (h : advanceSample stage s = .next t) :
    t.bus = s.bus ∧ t.params = s.params ∧ t.txbuf = s.txbuf ∧ ∀ ms, t.work ≠ .bte ms := by
  cases stage <;> simp only [advanceSample] at h <;> (try split at h) <;>
    (try (injection h with h; subst h
          simp [copyHigh, copyLow, clearReady, withMeas, State.withEcd, criticalClose, criticalOpen]))
  unfold measureSnapshot at h
  split at h
  · injection h with h; subst h; simp [withMeas, State.withEcd]
  · split at h
    · cases h
    · injection h with h; subst h; simp [useDraw, withMeas, State.withEcd]

/-- What acceptance for step-by-step execution leaves: the latches written and the program of the operation. -/
def Issued (i : Instr) : (Bus → Bus) × List Micro :=
  match i with
  | .cfg => (id, [.cfgCompute, .writeCcr, .writeTrise, .finishCfg])
  | .beginTx => (id, beginMicros ++ [.finish .success])
  | .sel a d => (latchSel a d, selMicros (BitVec.ofNat 7 a) d ++ [.finish .success])
  | .wr v => (latchWr v, wrMicros v ++ [.finish .success])
  | .rd m => (latchRd m, rdMicros m ++ [.finish .success])
  | .endTx => (id, [.endBody, .finish .success])
  | .xmit a n =>
    (fun b => clearIdx (latchXmit a n b), beginMicros ++ selMicros (BitVec.ofNat 7 a) false ++ [.nextByte])
  | .sample => (id, [])
  | .edge _ _ => (id, [])

theorem issue_next {i : Instr} {s t : State} (h : issue i s = .next t) :
    (i = .sample ∧ s.SampleReady ∧ t = { s with work := .sample .test }) ∨
    (i.isBte = true ∧ s.BteReady ∧
      t = { s.withBus ((Issued i).1 { s.bus with busy := true, phase := .issue }) with
        work := .bte (Issued i).2 }) := by
  cases i <;> simp only [issue, issueBte] at h
  case edge => cases h
  case sample =>
    obtain ⟨hr, h⟩ := acceptSample_next h
    injection h with h
    exact .inl ⟨rfl, hr, h.symm⟩
  all_goals
    right
    obtain ⟨hr, h⟩ := acceptBte_next h
    refine ⟨rfl, hr, ?_⟩
  case cfg =>
    split at h
    · cases h
    · injection h with h; exact h.symm
  case sel =>
    split at h
    · cases h
    · injection h with h; exact h.symm
  case xmit =>
    split at h
    · cases h
    · injection h with h; exact h.symm
  all_goals injection h with h; exact h.symm

end Sys2Proof.Machine
end

