-- ==== Sys2Proof/Tests/Slice0.lean ====
section
/-! SUPPORT. The model's own tests, expected results from spec/95_test_vectors.md (vector names in the comments),
and for every statement with hypotheses a concrete instance that meets them. -/

open Sys2Proof Sys2Proof.Machine

namespace Sys2Proof.Tests

/-! ### Helpers -/

/-- A ready machine with `N_POLL` = 4, the given answers of the environment and the given buffer. -/
def machine (polls : List Bool) (bytes : List Byte) (buffer : List Byte) : State :=
  { State.reset with
    params := { nPoll := 4, divRaw := .standardMode, zeroDivisor := .fault }
    bus := { State.reset.bus with
      clkCore := 16000000
      clkBus := 100000
      outcome := 1
      line := { State.reset.bus.line with env := { polls := polls, bytes := bytes, statuses := [1, 3] } } }
    txbuf := Memory.ofBytes 0 buffer }

/-- The same with these operands of `CFG`. -/
def clocked (core bus : Word) : State :=
  (machine [] [] []).withBus { (machine [] [] []).bus with clkCore := core, clkBus := bus }

/-- A machine whose shared record holds this pair, `READY` being 1. -/
def captured (high low : Half) : State :=
  (machine [] [] []).withEcd { State.reset.ecd with highInt := high, lowInt := low, ready := true, meas := 7 }

/-- A machine with these reference times. -/
def timed (lastRise lastFall : Half) : State :=
  (machine [] [] []).withEcd { State.reset.ecd with lastRise := lastRise, lastFall := lastFall }

/-- `OUTCOME`, `ITER` and `H` after an operation. -/
def busView (r : Result) : Option (BitVec 2 × Nat × List LuEvent) :=
  (nextState? r).map fun t => (t.bus.outcome, t.bus.line.iter, t.bus.line.hist)

/-- `LAST_RISE`, `LAST_FALL`, `HIGH_INT`, `LOW_INT`, `READY` after an operation. -/
def ecdView (r : Result) : Option (Half × Half × Half × Half × Bool) :=
  (nextState? r).map fun t => (t.ecd.lastRise, t.ecd.lastFall, t.ecd.highInt, t.ecd.lowInt, t.ecd.ready)

/-- The reason of a refusal. -/
def refusal? : Result → Option Refusal
  | .next _ => none
  | .fault _ => none
  | .refused r => some r

/-! ### WellFormed: each check refuses an ill-formed term, beside the largest it accepts (EN32) -/

theorem test_wf_sel_128 : (Instr.sel 128 false).wf = false := by decide
theorem test_wf_sel_127 : (Instr.sel 127 true).wf = true := by decide
theorem test_wf_xmit_128 : (Instr.xmit 128 4).wf = false := by decide
theorem test_wf_xmit_127 : (Instr.xmit 127 0xFFFF).wf = true := by decide

/-! ### Decode: words written out from R61, R62 (section 2 of the vectors) -/

theorem test_decode_cfg : decode 0b0000_000_0_00000000_0000000000000000 = .ok .cfg := by decide
theorem test_decode_begin : decode 0b0001_000_0_00000000_0000000000000000 = .ok .beginTx := by decide
theorem test_decode_sel : decode 0b0010_000_1_00100111_0000000000000000 = .ok (.sel 0x27 true) := by decide
theorem test_decode_wr : decode 0b0011_000_0_10100101_0000000000000000 = .ok (.wr 0xA5) := by decide
theorem test_decode_rd : decode 0b0100_000_1_00000000_0000000000000000 = .ok (.rd true) := by decide
theorem test_decode_end : decode 0b0101_000_0_00000000_0000000000000000 = .ok .endTx := by decide
theorem test_decode_xmit : decode 0b0110_000_0_00100111_0000000000000100 = .ok (.xmit 0x27 4) := by decide
theorem test_decode_sample : decode 0b1000_000_0_00000000_0000000000000000 = .ok .sample := by decide
theorem test_decode_edge : decode 0b1110_000_1_00000000_0000110000011100 = .ok (.edge 3100 true) := by decide

/-- EN20, EN22 to EN30: reserved code, `Z`, and each must-be-zero field. -/
theorem test_decode_refuses :
    decode 0x70000000 = .error .opcode ∧ decode 0xF0000000 = .error .opcode ∧
    decode 0x12000000 = .error .reservedBits ∧ decode 0x20800000 = .error .operandField ∧
    decode 0x31A50000 = .error .operandField ∧ decode 0x40010000 = .error .operandField ∧
    decode 0x50000001 = .error .operandField ∧ decode 0x61270004 = .error .operandField ∧
    decode 0x80000001 = .error .operandField ∧ decode 0x00010000 = .error .operandField ∧
    decode 0xE0010064 = .error .operandField := by decide

/-- The framed bytes of EN3 to EN6. -/
theorem test_frameByte :
    frameByte 0x27 false = 0x4E ∧ frameByte 0x27 true = 0x4F ∧ frameByte 0x40 true = 0x81 ∧
    frameByte 0x7F false = 0xFE := by decide

/-- R69: the textual form. -/
theorem test_render : (Instr.sel 39 true).render = "SEL 39, R" ∧ (Instr.edge 100 false).render = "EDGE 100, L" := by
  decide

/-! ### Operations -/

/-- CF1, and `H` and `CFG_COUNT` of section 3. -/
theorem test_cfg :
    (nextState? (exec .cfg (clocked 16000000 100000))).map
      (fun t => (t.bus.ccr, t.bus.trise, t.bus.cfgCount, t.bus.line.hist)) =
    some (80, 17, 1, [.writeCcr 80, .writeTrise 17]) := by decide

/-- CF5 to CF9, CF16, CF17: the clamps and the two results that must not wrap. -/
theorem test_cfg_values :
    (ccrValue .standardMode 800000 100000, triseValue 800000) = (4, 1) ∧
    ccrValue .standardMode 500000 100000 = 4 ∧ ccrValue .standardMode 819000 100 = 4095 ∧
    ccrValue .standardMode 819200 100 = 4095 ∧ ccrValue .standardMode 16000000 3000000000 = 4 ∧
    (ccrValue .standardMode 4294967295 100000, triseValue 4294967295) = (4095, 4295) := by decide

/-- BW2. -/
theorem test_begin_hit3 :
    busView (exec .beginTx (machine ((WaitAnswer.hit 3).polls 4 false) [] [])) =
    some (0, 3, [.setStart, .poll .sb false, .poll .sb false, .poll .sb false, .poll .sb true]) := by decide

/-- BW3: one iteration too late. -/
theorem test_begin_hit4 :
    busView (exec .beginTx (machine ((WaitAnswer.hit 4).polls 4 false) [] [])) =
    some (1, 4, [.setStart, .poll .sb false, .poll .sb false, .poll .sb false, .poll .sb false]) := by decide

/-- BW10. -/
theorem test_sel_hit1 :
    busView (exec (.sel 0x27 false) (machine ((WaitAnswer.hit 1).polls 4 true) [] [])) =
    some (0, 1, [.writeDr 0x4E, .poll .addr false, .poll .af false, .poll .addr true, .readSr1 1, .readSr3 3]) := by
  decide

/-- BW11: no status read. -/
theorem test_sel_nak0 :
    busView (exec (.sel 0x27 false) (machine ((WaitAnswer.nak 0).polls 4 true) [] [])) =
    some (2, 0, [.writeDr 0x4E, .poll .addr false, .poll .af true, .clearAf]) := by decide

/-- BW14: the wanted flag wins, `AF` is not sampled. -/
theorem test_sel_both0 :
    busView (exec (.sel 0x27 false) (machine ((WaitAnswer.both 0).polls 4 true) [] [])) =
    some (0, 0, [.writeDr 0x4E, .poll .addr true, .readSr1 1, .readSr3 3]) := by decide

/-- R26: the two status reads clear the address-matched condition the poll showed; without them it stays. -/
theorem test_sel_clears_addr :
    (nextState? (exec (.sel 0x27 false) (machine [true] [] []))).map (·.bus.line.lu.addr) = some false ∧
    (luPoll .addr (machine [true] [] []).bus.line).lu.addr = true := by decide

/-- BW16. -/
theorem test_wr_nak1 :
    busView (exec (.wr 0xA5) (machine ((WaitAnswer.nak 1).polls 4 true) [] [])) =
    some (2, 1, [.writeDr 0xA5, .poll .txe false, .poll .af false, .poll .txe false, .poll .af true, .clearAf]) := by
  decide

/-- BW19: the stop of the last byte before the read. -/
theorem test_rd_last :
    busView (exec (.rd false) (machine ((WaitAnswer.hit 2).polls 4 false) [0xFF] [])) =
      some (0, 2, [.setAck false, .poll .rxne false, .poll .rxne false, .poll .rxne true, .setStop, .readDr 0xFF]) ∧
    (nextState? (exec (.rd false) (machine ((WaitAnswer.hit 2).polls 4 false) [0xFF] []))).map (·.bus.rdata) =
      some 0xFF := by decide

/-- BW20: no stop, no read. -/
theorem test_rd_dead :
    busView (exec (.rd false) (machine (WaitAnswer.dead.polls 4 false) [] [])) =
    some (1, 4, [.setAck false, .poll .rxne false, .poll .rxne false, .poll .rxne false, .poll .rxne false]) := by
  decide

/-- BW22. -/
theorem test_end : busView (exec .endTx (machine [] [] [])) = some (0, 0, [.setStop]) := by decide

/-- X3: rejected byte 1, no stop. -/
theorem test_xmit_nak_byte1 :
    busView (exec (.xmit 0x27 4) (machine [true, true, true, false, true] [] [0x0C, 0x01, 0x38, 0x06])) =
    some (2, 0, [.setStart, .poll .sb true, .writeDr 0x4E, .poll .addr true, .readSr1 1, .readSr3 3,
      .writeDr 0x0C, .poll .txe true, .writeDr 0x01, .poll .txe false, .poll .af true, .clearAf]) := by decide

/-- P1: the cooperative peer. -/
theorem test_xmit_success :
    (nextState? (exec (.xmit 0x27 4) (machine
      [true, false, false, true, true, true, false, false, false, false, true, true] [] [0x0C, 0x01, 0x38, 0x06]))).map
      (fun t => (t.bus.outcome, t.bus.idx, t.bus.nWrOk, t.bus.nEnd, writtenBytes t.bus.line.hist)) =
    some (0, 4, 4, 1, [0x4E, 0x0C, 0x01, 0x38, 0x06]) := by decide

/-- ED3 (S6): the wrap. -/
theorem test_edge_wrap :
    ecdView (exec (.edge 10 true) (timed 0 65530)) = some (10, 65530, 0, 16, false) := by decide

/-- ED4: `READY` with a low reading. -/
theorem test_edge_low : ecdView (exec (.edge 0 false) (timed 65535 0)) = some (65535, 0, 1, 0, true) := by decide

/-- SA2 (S5). -/
theorem test_sample :
    (nextState? (exec .sample (captured 3000 3000))).map
      (fun t => (t.ecd.meas, t.ecd.snapH, t.ecd.snapL, t.ecd.ready, t.ie)) =
    some (2500, 3000, 3000, false, true) := by decide

/-- M2, M4, M5, M13, M19, M21 and M23. -/
theorem test_measure :
    measurePair 100 0 = some 0 ∧ measurePair 2000 1999 = some 0 ∧ measurePair 2000 2000 = none ∧
    measurePair 2001 3002 = some 4 ∧ measurePair 4000 1999 = some 5000 ∧ measurePair 40000 30000 = some 2878 ∧
    measurePair 65535 65535 = some 2500 := by decide

/-! ### Witnesses: a concrete instance that meets the hypotheses of each statement -/

theorem witness_BteReady : (machine [] [] []).BteReady := by decide
theorem witness_BteReady_reset : State.reset.BteReady := ⟨rfl, rfl⟩
theorem witness_SampleReady : (captured 3000 3000).SampleReady := by decide

theorem witness_DecodeEncodeAgree : (Instr.sel 127 true).wf = true ∧ (Instr.xmit 127 0xFFFF).wf = true := by decide
theorem witness_DecodedWordIsItsEncoding : decode 0x207F0000 = .ok (.sel 127 false) := by decide

/-- A word of the trace (first case) and a word the host presents (second case). -/
def placed (x : Stimulus) : State := { machine [] [] [] with trace := [x] }

theorem witness_StepRunsDecodedInstruction_traced :
    (placed (.traced 0x50000000)).servesEdge = false ∧ decode 0x50000000 = .ok .endTx ∧
    (placed (.traced 0x50000000)).trace = [.traced 0x50000000] := by decide
theorem witness_StepRunsDecodedInstruction_presented :
    (placed (.presented 0x50000000)).servesEdge = false ∧ decode 0x50000000 = .ok .endTx ∧
    (placed (.presented 0x50000000)).trace = [.presented 0x50000000] ∧ Instr.endTx.isHostCommand = true := by decide
theorem witness_PlacedWordRunsNext : decode 0xE0000064 = .ok (.edge 100 false) := by decide
theorem witness_IllegalWordRefused_traced :
    (placed (.traced 0x90000000)).servesEdge = false ∧ decode 0x90000000 = .error .opcode := by decide
theorem witness_IllegalWordRefused_presented :
    (placed (.presented 0x12000000)).servesEdge = false ∧ decode 0x12000000 = .error .reservedBits := by decide
theorem witness_IllegalWordRefused_issued :
    (placed (.issued 0x20800000)).servesEdge = false ∧ decode 0x20800000 = .error .operandField := by decide
theorem witness_EdgeWordIsNoCommand :
    (placed (.presented 0xE0000064)).servesEdge = false ∧ decode 0xE0000064 = .ok (.edge 100 false) ∧
    refusal? (step (placed (.presented 0xE0000064))) = some .eventNotCommand := by decide
/-- The same word issued while a `SAMPLE` is executed step by step. -/
theorem witness_EdgeWordIsNoCommand_issued :
    let s := { placed (.issued 0xE0000064) with work := .sample .test }
    s.servesEdge = false ∧ refusal? (step s) = some .eventNotCommand := by decide
theorem witness_EdgePendingAndContext_served :
    let s := { machine [] [] [] with edgePend := true }
    s.edgePend = true ∧ s.ie = true ∧ s.ctx = .fg := by decide
theorem witness_EdgePendingAndContext_signalled :
    let s := { placed .signalEdge with edgePend := true, ie := false }
    s.servesEdge = false ∧ (nextState? (step s)).map (·.edgePend) = some true := by decide
theorem witness_EdgePendingAndContext_enters :
    let s := placed .otherHandlerEnters
    s.servesEdge = false ∧ s.ie = true ∧ s.ctx = .fg ∧ (nextState? (step s)).map (·.ctx) = some .irq := by decide
theorem witness_EdgePendingAndContext_masked :
    let s := criticalOpen (placed .otherHandlerEnters)
    s.servesEdge = false ∧ s.ie = false ∧ (nextState? (step s)).map (·.ctx) = some .fg := by decide
theorem witness_EdgePendingAndContext_returns :
    let s := interruptEnter (placed .otherHandlerReturns)
    s.servesEdge = false ∧ (nextState? (step s)).map (fun t => (t.ctx, t.ie)) = some (.fg, true) := by decide
theorem witness_EdgePendingAndContext_preempted :
    let s := { interruptEnter (placed .advance) with work := .sample .test }
    s.ctx = .irq ∧ (nextState? (step s)).map (·.work) = some (.sample .test) := by decide

/-- BW23 and BW24. -/
def busyMachine : State := (machine [] [] []).withBus { (machine [] [] []).bus with busy := true }
theorem witness_BteCommandRefused_busy :
    Instr.beginTx.isBte = true ∧ busyMachine.bus.busy = true ∧
    refusal? (exec .beginTx busyMachine) = some .busyReissue := by decide
theorem witness_BteCommandRefused_irq :
    let s := interruptEnter (machine [] [] [])
    s.bus.busy = false ∧ s.ctx = .irq ∧ refusal? (exec (.wr 1) s) = some .busOpInInterrupt := by decide
theorem witness_AddressAboveRangeRefused : (machine [] [] []).BteReady ∧ 127 < 128 := by decide

theorem witness_CfgResult : (clocked 16000000 1).BteReady ∧ (clocked 16000000 1).bus.clkBus ≠ 0 := by decide
theorem witness_CfgParametersAsNumbers : ∃ t, exec .cfg (clocked 4294967295 100000) = .next t := ⟨_, rfl⟩
theorem witness_CfgBusClockZeroRefused : (clocked 16000000 0).BteReady ∧ (clocked 16000000 0).bus.clkBus = 0 := by
  decide
theorem witness_SelFramesAddress : ∃ t, exec (.sel 127 true) (machine [true] [] []) = .next t := ⟨_, rfl⟩
theorem witness_SelResult : (machine [] [] []).BteReady ∧ 127 ≤ 127 := by decide

/-- The four forms of the statement, a byte being scripted. -/
theorem witness_PrimitivesFollowScript :
    let s := machine [] [0x63] []
    let scripted := fun (i : Instr) (a : WaitAnswer) =>
      (nextState? (exec i (s.withBus (s.bus.withLine (s.bus.line.script (a.polls 4 i.checksAf)))))).map
        fun t => (t.bus.outcome, t.bus.line.iter)
    s.BteReady ∧ s.bus.line.env.bytes = [0x63] ∧
    scripted .beginTx .dead = some (1, 4) ∧ scripted (.sel 127 true) (.nak 3) = some (2, 3) ∧
    scripted (.wr 0) (.both 0) = some (0, 0) ∧ scripted (.rd true) (.hit 3) = some (0, 3) := by decide

/-- A buffer of two elements, the peer accepting the address and byte 0 and rejecting byte 1. -/
def rejecting : State := machine [true, true, true, false, true] [] [0x0C, 0x01]

theorem witness_XmitResult :
    rejecting.BteReady ∧ Memory.covers rejecting.txbuf (2 : Half).toNat = true := by decide
/-- The first of its four ends: the wait of `BEGIN` fails, here with the whole budget spent. -/
theorem witness_XmitResult_begin :
    busView (exec (.xmit 0x27 2) (machine ((WaitAnswer.dead).polls 4 false) [] [0x0C, 0x01])) =
    some (1, 4, beginEvents .timeout 4) := by decide
theorem witness_XmitNackAtByte :
    rejecting.BteReady ∧ Memory.covers rejecting.txbuf (2 : Half).toNat = true ∧ 0 < rejecting.params.nPoll ∧
    [0].length < (2 : Half).toNat ∧
    rejecting.bus.line.env.polls =
      (WaitAnswer.hit 0).polls rejecting.params.nPoll false ++ (WaitAnswer.hit 0).polls rejecting.params.nPoll true ++
      ([0].map fun k => (WaitAnswer.hit k).polls rejecting.params.nPoll true).flatten ++
      (WaitAnswer.nak 0).polls rejecting.params.nPoll true ++ [] ∧
    (busView (exec (.xmit 127 2) rejecting)).isSome = true := by decide

def rejectingAddress : State := machine [true, false, true] [] [0x0C]
theorem witness_XmitNackAtAddress :
    rejectingAddress.BteReady ∧ Memory.covers rejectingAddress.txbuf (1 : Half).toNat = true ∧
    0 < rejectingAddress.params.nPoll ∧
    rejectingAddress.bus.line.env.polls =
      (WaitAnswer.hit 0).polls rejectingAddress.params.nPoll false ++
      (WaitAnswer.nak 0).polls rejectingAddress.params.nPoll true ++ [] ∧
    (busView (exec (.xmit 0 1) rejectingAddress)).isSome = true := by decide

def cooperative (buffer : List Byte) : State := machine [true, true, true] [] buffer
theorem witness_XmitCooperativePeer :
    (cooperative [0x0C]).BteReady ∧ Memory.covers (cooperative [0x0C]).txbuf (1 : Half).toNat = true ∧
    0 < (cooperative [0x0C]).params.nPoll ∧
    (cooperative [0x0C]).bus.line.env.polls =
      (WaitAnswer.hit 0).polls (cooperative [0x0C]).params.nPoll false ++
      (WaitAnswer.hit 0).polls (cooperative [0x0C]).params.nPoll true ++
      ([0].map fun k => (WaitAnswer.hit k).polls (cooperative [0x0C]).params.nPoll true).flatten ++ [] ∧
    (busView (exec (.xmit 0x27 1) (cooperative [0x0C]))).isSome = true := by decide

/-- Element 1 is missing and is reached. -/
theorem witness_XmitFaultsAtMissingElement :
    (cooperative [0x0C]).BteReady ∧ Memory.covers (cooperative [0x0C]).txbuf [0].length = true ∧
    Memory.read (cooperative [0x0C]).txbuf [0].length = none ∧ [0].length < (2 : Half).toNat := by decide
theorem witness_XmitFaultsOnlyAtMissingElement :
    ∃ u, exec (.xmit 0x27 2) (cooperative [0x0C]) = .fault (.txbufElementMissing u) := ⟨_, rfl⟩

theorem witness_EdgeResult : (timed 0 0).ie = true ∧ (timed 0 0).ctx = .fg := by decide
/-- ED11, and a run while another handler is active. -/
theorem witness_EdgeNotEnabledRunsNoHandler :
    (criticalOpen (timed 0 0)).ie = false ∧ (interruptEnter (timed 0 0)).ctx = .irq := by decide

/-- SA1. -/
theorem witness_SampleNotReady : (timed 0 0).SampleReady ∧ (timed 0 0).ecd.ready = false := by decide
/-- M4 and M8, the two sides of the zero divisor at `h` = 2000, and M3. -/
theorem witness_SampleReadyResult :
    (captured 2000 1999).SampleReady ∧ (captured 2000 1999).ecd.ready = true ∧
    ¬ ZeroDivisorPair 2000 1999 ∧ ¬ ZeroDivisorPair 2000 2001 ∧ ¬ ZeroDivisorPair 1999 65535 := by decide
/-- M5 and M7. -/
theorem witness_SampleZeroDivisorFaults :
    (captured 2000 2000).SampleReady ∧ (captured 2000 2000).ecd.ready = true ∧ ZeroDivisorPair 2000 2000 ∧
    ZeroDivisorPair 4000 0 ∧ (captured 2000 2000).params.zeroDivisor = .fault := by decide
/-- The same pair under D19. -/
def drawing : State := { captured 2000 2000 with params := { nPoll := 4, divRaw := .standardMode, zeroDivisor := .draw } }
theorem witness_SampleZeroDivisorDraws :
    drawing.SampleReady ∧ drawing.ecd.ready = true ∧ ZeroDivisorPair drawing.ecd.highInt drawing.ecd.lowInt ∧
    drawing.params.zeroDivisor = .draw := by decide
theorem witness_MeasurementInRange : ∃ t, exec .sample (captured 65535 0) = .next t := ⟨_, rfl⟩
/-- SA9 with a bus operation in between. -/
theorem witness_SecondSampleReturnsZero :
    ((nextState? (exec .sample (captured 2500 3500))).bind fun t =>
      [Instr.edge 9000 true, .endTx].foldlM (fun x i => nextState? (exec i x)) t).isSome = true := by decide
/-- SA7 and SA8. -/
theorem witness_SampleRefused :
    refusal? (exec .sample (interruptEnter (captured 1 1))) = some .sampleInInterrupt ∧
    refusal? (exec .sample (criticalOpen (captured 1 1))) = some .sampleWithInterruptsOff := by decide
/-- A `SAMPLE` that comes inside another waits: the step opens the critical section of the first. -/
theorem witness_SampleRefused_waits :
    let s := { captured 1 1 with work := .sample .openSection, trace := [.presented 0x80000000] }
    s.ctx = .fg ∧ s.ie = true ∧ s.edgePend = false ∧ s.work ≠ .none ∧
    (nextState? (step s)).map (fun t => (t.ie, t.trace)) = some (false, [.presented 0x80000000]) := by decide

/-- Of the rules over every operation: an operation of each unit that answers a next state. -/
theorem witness_rules_bte : Instr.endTx.isBte = true ∧ ∃ t, exec .endTx (machine [] [] []) = .next t := ⟨rfl, _, rfl⟩
theorem witness_rules_ecd :
    Instr.sample.isBte = false ∧ ∃ t, exec .sample (captured 3000 3000) = .next t := ⟨rfl, _, rfl⟩
theorem witness_UnitsCommute :
    (∃ t u, exec .endTx (machine [] [] []) = .next t ∧ exec (.edge 100 false) t = .next u) ∧
    ∃ v u, exec .sample (captured 3000 3000) = .next v ∧ exec .endTx v = .next u := ⟨⟨_, _, rfl, rfl⟩, _, _, rfl, rfl⟩
theorem witness_ReadyChangesOnlyAsStated : (timed 0 0).handlerEnabled = true ∧
    ((nextState? (exec (.edge 0 false) (timed 0 0))).map (·.ecd.ready) = some true ∧ (timed 0 0).ecd.ready = false) ∧
    ((nextState? (exec .sample (captured 1 1))).map (·.ecd.ready) = some false ∧ (captured 1 1).ecd.ready = true) := by
  decide
theorem witness_OutcomeCodes :
    (∃ t, exec .cfg (clocked 16000000 100000) = .next t) ∧ (∃ t, exec .beginTx (machine [true] [] []) = .next t) ∧
    (∃ t, exec (.rd true) (machine [true] [] []) = .next t) ∧ ∃ t, exec .endTx (machine [] [] []) = .next t :=
  ⟨⟨_, rfl⟩, ⟨_, rfl⟩, ⟨_, rfl⟩, ⟨_, rfl⟩⟩
theorem witness_HistoryOnlyGrows : ∃ t, step (placed (.traced 0x50000000)) = .next t := ⟨_, rfl⟩

/-! A `BEGIN` accepted for step-by-step execution, and one micro-step of it; the same for a `SAMPLE`. -/

def begun : State := (nextState? (issue .beginTx (machine [true] [] []))).getD (machine [] [] [])
def sampling : State := { captured 3000 3000 with work := .sample .test }

theorem witness_StepKeepsTxbufCanonical : TxbufCanonical (machine [] [] [1, 2]) := by unfold TxbufCanonical; decide
theorem witness_StepKeepsBusyPhaseAgree : BusyPhaseAgree begun :=
  ⟨by decide, ⟨fun _ => ⟨_, rfl⟩, fun _ => rfl⟩, fun _ h => by
    injection h with h; exact ⟨beginMicros, .finish .success, h.symm, .inr (.inr ⟨.success, rfl⟩)⟩⟩
/-- A `SAMPLE` that comes inside a `BEGIN` waits: the step is the start of `BEGIN`. -/
theorem witness_SampleRefused_busy :
    let s := { begun with trace := [.traced 0x80000000] }
    s.ctx = .fg ∧ s.ie = true ∧ s.edgePend = false ∧ s.bus.busy = true ∧
    (nextState? (step s)).map (fun t => (t.bus.line.hist, t.trace)) = some ([.setStart], [.traced 0x80000000]) := by
  decide
/-- A BTE command at `BUSY` = 1 is refused and does not wait; one that comes inside a `SAMPLE` waits, unless a refusal
is due. -/
theorem witness_StepRunsDecodedInstruction_blocked :
    let s := fun (w : Word) => { sampling with trace := [.issued w] }
    (s 0x50000000).servesEdge = false ∧ (s 0x50000000).foregroundFree = false ∧
    (nextState? (step (s 0x50000000))).map (·.work) = some (.sample .openSection) ∧
    refusal? (step { begun with trace := [.traced 0x50000000] }) = some .busyReissue ∧
    refusal? (step ((s 0).withBus { (s 0).bus with clkBus := 0 })) = some .configBusClockZero := by decide
theorem witness_StepKeepsIterWithinBudget : IterWithinBudget begun :=
  ⟨by decide, fun _ h => by injection h with h; subst h; simp [beginMicros]⟩
theorem witness_StepKeepsDividerInRange : DividerInRange begun :=
  ⟨fun h => absurd h (by decide), fun before after h => by
    injection h with h
    have : Micro.finishCfg ∈ beginMicros ++ [.finish .success] := by rw [h]; simp
    simp [beginMicros] at this⟩
theorem witness_StepKeepsInterruptsOn : InterruptsOnOutsideSection sampling :=
  ⟨fun h => absurd h (by decide), fun _ h => by injection h with h; subst h; rfl⟩
theorem witness_step_of_work : ∃ t, step { begun with trace := [.advance] } = .next t := ⟨_, rfl⟩

theorem witness_StepwiseMeetsMeaning :
    Instr.beginTx.isHostCommand = true ∧ (machine [true] [] []).work = .none ∧
    (∃ u, issue .beginTx (machine [true] [] []) = .next u) ∧ ∃ t, exec .beginTx (machine [true] [] []) = .next t :=
  ⟨rfl, rfl, ⟨_, rfl⟩, ⟨_, rfl⟩⟩
theorem witness_HandlerRunCommutesWithMicroStep :
    begun.work = .bte (beginMicros ++ [.finish .success]) ∧ begun.ie = true ∧ begun.ctx = .fg ∧
    ∃ t, advance begun = .next t := ⟨rfl, rfl, rfl, _, rfl⟩
theorem witness_HandlerRunBetweenSampleSteps :
    sampling.work = .sample .test ∧ sampling.ecd.ready = true ∧ sampling.ie = true ∧ sampling.ctx = .fg ∧
    ∃ t u, advance sampling = .next t ∧ exec (.edge 14600 true) t = .next u := ⟨rfl, rfl, rfl, rfl, _, _, rfl, rfl⟩
theorem witness_HostWrites_fill :
    (placed (.fillTxbuf 0xFFFF 9)).servesEdge = false ∧ (placed (.fillTxbuf 0xFFFF 9)).bus.busy = false ∧
    (placed (.fillTxbuf 0xFFFF 9)).work = .none ∧
    (nextState? (step (placed (.fillTxbuf 0xFFFF 9)))).map (·.txbuf) = some [(65535, 9)] := by decide
theorem witness_HostWrites_load :
    Stimulus.isHostWrite (.loadTxbuf [5, 6]) = true ∧
    (nextState? (step (placed (.loadTxbuf [5, 6])))).map (·.txbuf) = some [(0, 5), (1, 6)] := by decide
theorem witness_HostWrites_clocks :
    (nextState? (step (placed (.setClkCore 0xFFFFFFFF)))).map (·.bus.clkCore) = some 0xFFFFFFFF ∧
    (nextState? (step (placed (.setClkBus 0)))).map (·.bus.clkBus) = some 0 := by decide
theorem witness_HostWrites_waits :
    let s := { begun with trace := [.setClkBus 1] }
    s.servesEdge = false ∧ s.bus.busy = true ∧
    (nextState? (step s)).map (fun t => (t.bus.clkBus, t.bus.line.hist, t.trace)) =
      some (100000, [.setStart], [.setClkBus 1]) := by decide
theorem witness_TxbufReadAfterFill : (1 : Nat) ≠ 0 ∧ Memory.wf [(0, 7), (2, 9)] = true := by decide

/-! ### The host's check of rows, from reset -/

theorem test_reset_runs_begin : (nextState? (step (State.reset.withFetchWord 32 0x10000000))).isSome = true := by decide
theorem test_reset_runs_edge : ecdView (step (State.reset.withFetchWord 32 0xE0000064)) = some (0, 100, 100, 0, true) := by
  decide

end Sys2Proof.Tests
end

section
/-! An operation executed access by access ends where its one-step meaning does (10_state.md R21, 20_memory.md R49):
the micro-steps of each body, proved against the body they carry out. -/

namespace Sys2Proof.Machine

/-! ### What the bodies keep, and when `XMIT` has an outcome -/

theorem wrBody_idx (n : Nat) (v : Byte) (b : Bus) : (wrBody n v b).2.idx = b.idx := by
  obtain ⟨o, k, x, y, polls, -, hw⟩ := wrBody_spec n v b
  rw [hw]

theorem wrBody_len (n : Nat) (v : Byte) (b : Bus) : (wrBody n v b).2.len = b.len := by
  obtain ⟨o, k, x, y, polls, -, hw⟩ := wrBody_spec n v b
  rw [hw]

/-- A buffer that has its elements gives `XMIT` an outcome (70_reset_and_hazards.md R161). -/
theorem xmitBytes_covered {nPoll : Nat} {m : Memory} {len : Half} (b : Bus) (hb : b.idx = 0)
    (hm : Memory.covers m len.toNat = true) : (xmitBytes nPoll m len.toNat b).1 ≠ none := by
  obtain ⟨r, k, sent, gained, d, x, y, polls, hx, -, hend⟩ :=
    xmitBytes_spec nPoll m len.toNat b (by simp [hb]; exact len.isLt)
  rw [hx]
  rintro rfl
  obtain ⟨hlt, hnone, -⟩ := hend
  have := Memory.covers_read hm hlt
  simp [hb] at hnone
  simp [hnone] at this

theorem xmitBody_covered {nPoll : Nat} {m : Memory} {a7 : BitVec 7} {len : Half} (b : Bus)
    (hm : Memory.covers m len.toNat = true) : (xmitBody nPoll m a7 len b).1 ≠ none := by
  simp only [xmitBody]
  split
  · split
    · split
      · simp
      · exact xmitBytes_covered _ rfl hm
    · simp
  · simp

/-- `XMIT` with an outcome completes with it, the buffer having its elements or not. -/
theorem xmitEnd_some (s : State) (covered : Bool) {r : Option TxOutcome × Bus} {o : TxOutcome} (h : r.1 = some o) :
    xmitEnd s covered r = .next (s.withBus (complete o r.2)) := by
  cases covered <;> simp [xmitEnd, h]

/-- `XMIT` that answers a next state has completed with an outcome of its body. -/
theorem xmitEnd_next {s t : State} {covered : Bool} {r : Option TxOutcome × Bus} (hr : covered = true → r.1 ≠ none)
    (h : xmitEnd s covered r = .next t) : ∃ o, r.1 = some o ∧ t = s.withBus (complete o r.2) := by
  cases ho : r.1 with
  | none =>
    cases covered
    · simp [xmitEnd, ho] at h
    · exact absurd ho (hr rfl)
  | some o =>
    rw [xmitEnd_some s covered ho] at h
    cases h
    exact ⟨o, rfl, rfl⟩

/-! ### Micro-steps in a row -/

/-- Some number of micro-steps in a row leads from `s` to `t`. -/
def Reaches (s t : State) : Prop := ∃ n, advances n s = .next t

theorem Reaches.refl (s : State) : Reaches s s := ⟨0, rfl⟩

theorem Reaches.head {s u t : State} (h : advance s = .next u) : Reaches u t → Reaches s t
  | ⟨n, hn⟩ => ⟨n + 1, by simpa [advances, h] using hn⟩

/-- A property that each micro-step keeps holds of what micro-steps reach. -/
theorem Reaches.keeps {P : State → Prop} (keep : ∀ s t, P s → advance s = .next t → P t) {s t : State}
    (hs : P s) (h : Reaches s t) : P t := by
  obtain ⟨n, h⟩ := h
  induction n generalizing s with
  | zero => cases h; exact hs
  | succ n ih =>
    rw [advances] at h
    split at h
    · exact ih (keep _ _ hs ‹_›) h
    · cases h
    · cases h

/-- `s` with the BTE `b` and the micro-steps `ms` of its operation still to come. -/
def State.doing (s : State) (ms : List Micro) (b : Bus) : State := { s.withBus b with work := .bte ms }

/-- With `ms` to come, the operation reaches `t`, whatever `PHASE` is. Completion makes `PHASE` `IDLE`, so the value it
has on the way, which a one-step meaning does not have, leaves no trace in `t`. -/
def Ends (s : State) (ms : List Micro) (b : Bus) (t : State) : Prop :=
  ∀ p, Reaches (s.doing ms (b.withPhase p)) t

/-- One micro-step in front. -/
theorem Ends.step {s t : State} {m : Micro} {rest rest' : List Micro} {b b' : Bus} (fg : s.ctx = .fg)
    (hm : ∀ p, ∃ q, microStep s.params s.txbuf rest (b.withPhase p) m = .more rest' (b'.withPhase q))
    (h : Ends s rest' b' t) : Ends s (m :: rest) b t := by
  intro p
  obtain ⟨q, hq⟩ := hm p
  refine .head ?_ (h q)
  simp [advance, State.doing, advanceBte, hq, fg, State.withBus]

/-- One micro-step in front that does `g` to the BTE, leaves `PHASE` alone and goes on. -/
theorem Ends.access {s t : State} {m : Micro} {rest : List Micro} {b : Bus} {g : Bus → Bus} (fg : s.ctx = .fg)
    (hm : ∀ c, microStep s.params s.txbuf rest c m = .more rest (g c)) (h : Ends s rest (g b) t)
    (hg : ∀ p, g (b.withPhase p) = (g b).withPhase p := by exact fun _ => rfl) : Ends s (m :: rest) b t :=
  .step fg (fun p => ⟨p, by rw [hm, hg]⟩) h

theorem State.idle_eq {s : State} (idle : s.work = .none) : { s with work := .none } = s := by
  rw [← idle]

/-- The micro-step that completes the operation. -/
theorem Ends.done {s : State} {m : Micro} {b b' : Bus} (fg : s.ctx = .fg) (idle : s.work = .none)
    (hm : ∀ p, microStep s.params s.txbuf [] (b.withPhase p) m = .done b') : Ends s [m] b (s.withBus b') := by
  refine fun p => .head ?_ (.refl _)
  rw [← State.idle_eq (s := s.withBus b') idle]
  simp [advance, State.doing, advanceBte, hm, fg, State.withBus]

theorem Ends.finish {s : State} (fg : s.ctx = .fg) (idle : s.work = .none) (o : TxOutcome) (b : Bus) :
    Ends s [.finish o] b (s.withBus (complete o b)) :=
  .done fg idle fun _ => rfl

/-! ### The bounded wait -/

/-- What is left of an operation whose wait for `f` ended with `o`, `rest` being what comes after a success. -/
def afterWait (f : LuFlag) (rest : List Micro) (o : TxOutcome) : List Micro :=
  if o = .success then rest else abandon f o

@[simp] theorem afterWait_success (f : LuFlag) (rest : List Micro) : afterWait f rest .success = rest := rfl

theorem afterWait_failed {f : LuFlag} (rest : List Micro) {o : TxOutcome} (ho : o ≠ .success) :
    afterWait f rest o = abandon f o := if_neg ho

section
variable {p : Params} {m : Memory} {rest : List Micro} {b : Bus} {f : LuFlag} {checkAf : Bool}

theorem microStep_sampleFlag_spent (h : ¬ b.line.iter < p.nPoll) :
    microStep p m rest b (.sampleFlag f checkAf) = .more (abandon f .timeout) b := if_neg h

theorem microStep_sampleFlag_seen (h : b.line.iter < p.nPoll) (hf : pollAnswer f b.line = true) :
    microStep p m rest b (.sampleFlag f checkAf) =
      .more rest ((b.withLine (luPoll f b.line)).withPhase .finish) := by
  simp [microStep, h, hf]

theorem microStep_sampleFlag_missed (h : b.line.iter < p.nPoll) (hf : pollAnswer f b.line = false) :
    microStep p m rest b (.sampleFlag f false) =
      .more (.sampleFlag f false :: rest) (b.withLine ((luPoll f b.line).withIter (b.line.iter + 1))) := by
  simp [microStep, h, hf]

theorem microStep_sampleFlag_missed_checking (h : b.line.iter < p.nPoll) (hf : pollAnswer f b.line = false) :
    microStep p m rest b (.sampleFlag f true) = .more (.sampleAf f :: rest) (b.withLine (luPoll f b.line)) := by
  simp [microStep, h, hf]

theorem microStep_sampleAf_seen (h : pollAnswer .af b.line = true) :
    microStep p m rest b (.sampleAf f) =
      .more (.clearAf :: abandon f .nack) (b.withLine (luPoll .af b.line)) := if_pos h

theorem microStep_sampleAf_clear (h : pollAnswer .af b.line = false) :
    microStep p m rest b (.sampleAf f) =
      .more (.sampleFlag f true :: rest) (b.withLine ((luPoll .af b.line).withIter (b.line.iter + 1))) := by
  simp [microStep, h]

end

/-- The samples of a wait with `k` iterations left carry out the loop of `PollWait` (40_bus_primitives.md R80). -/
theorem Ends.of_sampleFlag {s t : State} {f : LuFlag} {checkAf : Bool} {rest : List Micro} (fg : s.ctx = .fg) :
    ∀ (k : Nat) (b : Bus), b.line.iter + k = s.params.nPoll →
      Ends s (afterWait f rest (pollLoop f checkAf k b.line).1) (b.withLine (pollLoop f checkAf k b.line).2) t →
      Ends s (.sampleFlag f checkAf :: rest) b t := by
  intro k
  induction k with
  | zero =>
    intro b hk h
    exact .step fg (fun p => ⟨p, microStep_sampleFlag_spent (by simp [← hk])⟩) h
  | succ k ih =>
    intro b hk h
    have hlt : b.line.iter < s.params.nPoll := by omega
    cases hf : pollAnswer f b.line with
    | true =>
      simp only [pollLoop, hf, if_true, afterWait_success] at h
      exact .step fg (fun p => ⟨.finish, microStep_sampleFlag_seen (b := b.withPhase p) hlt hf⟩) h
    | false =>
      cases checkAf with
      | false =>
        simp only [pollLoop, hf, Bool.false_eq_true, if_false] at h
        exact .step fg (fun p => ⟨p, microStep_sampleFlag_missed (b := b.withPhase p) hlt hf⟩)
          (ih (b.withLine ((luPoll f b.line).withIter (b.line.iter + 1))) (by simp; omega) h)
      | true =>
        refine .step fg (b' := b.withLine (luPoll f b.line))
          (fun p => ⟨p, microStep_sampleFlag_missed_checking hlt hf⟩) ?_
        cases ha : pollAnswer .af (luPoll f b.line) with
        | true =>
          simp only [pollLoop, hf, ha, Bool.false_eq_true, if_true, if_false] at h
          exact .step fg (b' := b.withLine (luPoll .af (luPoll f b.line)))
            (fun p => ⟨p, microStep_sampleAf_seen ha⟩) (.step fg (fun p => ⟨p, rfl⟩) h)
        | false =>
          simp only [pollLoop, hf, ha, Bool.false_eq_true, if_true, if_false] at h
          exact .step fg (fun p => ⟨p, microStep_sampleAf_clear ha⟩)
            (ih (b.withLine ((luPoll .af (luPoll f b.line)).withIter (b.line.iter + 1))) (by simp; omega) h)

theorem Ends.of_openWait {s t : State} {f : LuFlag} {checkAf : Bool} {rest : List Micro} {b : Bus} (fg : s.ctx = .fg)
    (h : Ends s (afterWait f rest (pollWait s.params.nPoll f checkAf b.line).1)
      (b.withLine (pollWait s.params.nPoll f checkAf b.line).2) t) : Ends s (.openWait f checkAf :: rest) b t :=
  .step fg (fun _ => ⟨.poll, rfl⟩) (.of_sampleFlag fg _ (b.withLine (b.line.withIter 0)) (by simp) h)

/-! ### The bodies of the primitives -/

section
variable {s t : State} {rest : List Micro} {b : Bus} (fg : s.ctx = .fg)
include fg

theorem Ends.of_begin
    (h : Ends s (afterWait .sb rest (beginBody s.params.nPoll b.line).1)
      (b.withLine (beginBody s.params.nPoll b.line).2) t) : Ends s (beginMicros ++ rest) b t :=
  .step fg (b' := b.withLine (luSetStart b.line)) (fun _ => ⟨.issue, rfl⟩) (.of_openWait fg h)

theorem Ends.of_sel {a7 : BitVec 7} {direction : Bool}
    (h : Ends s (afterWait .addr rest (selBody s.params.nPoll a7 direction b.line).1)
      (b.withLine (selBody s.params.nPoll a7 direction b.line).2) t) :
    Ends s (selMicros a7 direction ++ rest) b t := by
  refine .step fg (b' := b.withLine (luWriteDr (frameByte a7 direction) b.line)) (fun _ => ⟨.issue, rfl⟩)
    (.of_openWait fg ?_)
  simp only [selBody] at h
  split at h
  case isTrue ho =>
    simp only [Bus.withLine_line, ho, afterWait_success] at h ⊢
    exact .access fg (fun _ => rfl) (.access fg (fun _ => rfl) h)
  case isFalse ho =>
    simp only [Bus.withLine_line, afterWait_failed _ ho] at h ⊢
    exact h

theorem Ends.of_wr {v : Byte}
    (h : Ends s (afterWait .txe rest (wrBody s.params.nPoll v b).1) (wrBody s.params.nPoll v b).2 t) :
    Ends s (wrMicros v ++ rest) b t := by
  refine .step fg (b' := b.withLine (luWriteDr v b.line)) (fun _ => ⟨.issue, rfl⟩) (.of_openWait fg ?_)
  simp only [wrBody] at h
  split at h
  case isTrue ho =>
    simp only [Bus.withLine_line, ho, afterWait_success] at h ⊢
    exact .access fg (fun _ => rfl) h
  case isFalse ho =>
    simp only [Bus.withLine_line, afterWait_failed _ ho] at h ⊢
    exact h

variable (idle : s.work = .none)
include idle

/-- A failed wait that is no wait for `RXNE` completes the operation with its outcome. -/
theorem Ends.of_abandon {f : LuFlag} (hf : f ≠ .rxne) (o : TxOutcome) (b : Bus) :
    Ends s (abandon f o) b (s.withBus (complete o b)) := by
  rw [abandon, if_neg hf]
  exact .finish fg idle o b

theorem Ends.of_finish_afterWait {f : LuFlag} (hf : f ≠ .rxne) (o : TxOutcome) (b : Bus) :
    Ends s (afterWait f [.finish .success] o) b (s.withBus (complete o b)) := by
  by_cases ho : o = .success
  · subst ho
    exact .finish fg idle .success b
  · rw [afterWait_failed _ ho]
    exact .of_abandon fg idle hf o b

theorem Ends.of_rd (more : Bool) (b : Bus) :
    Ends s (rdMicros more ++ [.finish .success]) b
      (s.withBus (complete (rdBody s.params.nPoll more b).1 (rdBody s.params.nPoll more b).2)) := by
  have acked {rest : List Micro} {t : State}
      (h : Ends s (afterWait .rxne rest (pollWait s.params.nPoll .rxne false (luSetAck more b.line)).1)
        (b.withLine (pollWait s.params.nPoll .rxne false (luSetAck more b.line)).2) t) :
      Ends s (.setAck more :: .openWait .rxne false :: rest) b t :=
    .step fg (b' := b.withLine (luSetAck more b.line)) (fun _ => ⟨.issue, rfl⟩) (.of_openWait fg h)
  simp only [rdBody]
  split
  case isTrue ho =>
    cases more with
    | false =>
      refine acked ?_
      rw [ho, afterWait_success]
      exact .access fg (fun _ => rfl) (.access fg (fun _ => rfl) (.finish fg idle _ _))
    | true =>
      refine acked ?_
      rw [ho, afterWait_success]
      exact .access fg (fun _ => rfl) (.finish fg idle _ _)
  case isFalse ho =>
    have lost {rest : List Micro} := acked (rest := rest) <| by
      rw [afterWait_failed _ ho]
      exact .access fg (fun _ => rfl) (.finish fg idle _ _)
    cases more
    · exact lost
    · exact lost

/-! ### `XMIT` (41_bus_composite.md R100) -/

/-- How an `XMIT` goes on after its loop has ended with `o`. -/
def afterBytes (o : TxOutcome) : List Micro :=
  if o = .success then [.endBody, .finish .success] else [.finish o]

omit idle in
/-- The micro-steps from the loop test on carry out the loop with `n` bytes to go. -/
theorem Ends.of_nextByte {t : State} {o : TxOutcome} {b' : Bus} : ∀ (n : Nat) (b : Bus),
    b.idx.toNat + n = b.len.toNat →
    xmitBytes s.params.nPoll s.txbuf n b = (some o, b') → Ends s (afterBytes o) b' t → Ends s [.nextByte] b t := by
  intro n
  induction n with
  | zero =>
    intro b hn hx h
    cases hx
    exact .step fg (fun p => ⟨p, if_neg (by simp; omega)⟩) h
  | succ n ih =>
    intro b hn hx h
    have hlt : b.idx.toNat < b.len.toNat := by omega
    rw [xmitBytes] at hx
    split at hx
    · cases hx
    · rename_i v hv
      refine .step fg (rest' := wrMicros v ++ [.stepIdx, .nextByte]) (b' := b)
        (fun p => ⟨p, by simp [microStep, hlt, hv]⟩) (Ends.of_wr fg ?_)
      simp only at hx
      split at hx
      · rename_i ho
        rw [ho]
        refine .access fg (fun _ => rfl) (ih _ ?_ hx h)
        have := b.len.isLt
        simp [stepIdx, wrBody_idx, wrBody_len]
        omega
      · rename_i ho
        cases hx
        rw [afterWait_failed _ ho]
        rwa [afterBytes, if_neg ho] at h

/-- The micro-steps of `XMIT` carry out its body. -/
theorem Ends.of_xmit {a7 : BitVec 7} {b : Bus} {o : TxOutcome}
    (h : (xmitBody s.params.nPoll s.txbuf a7 b.len b).1 = some o) :
    Ends s (beginMicros ++ selMicros a7 false ++ [.nextByte]) (clearIdx b)
      (s.withBus (complete o (xmitBody s.params.nPoll s.txbuf a7 b.len b).2)) := by
  rw [List.append_assoc]
  refine .of_begin fg ?_
  simp only [xmitBody] at h ⊢
  split at h
  case isFalse hbegin =>
    cases h
    rw [afterWait_failed _ hbegin, if_neg hbegin]
    exact .of_abandon fg idle (by decide) _ _
  case isTrue hbegin =>
    rw [hbegin, afterWait_success, if_pos rfl]
    refine .of_sel fg ?_
    split at h
    case isFalse hsel =>
      cases h
      simp only [Bus.withLine_line, afterWait_failed _ hsel, if_neg hsel]
      exact .of_abandon fg idle (by decide) _ _
    case isTrue hsel =>
      simp only [Bus.withLine_line, hsel, afterWait_success, if_true]
      split at h
      case isTrue hsent =>
        cases h
        rw [if_pos hsent]
        refine .of_nextByte fg _ _ ?_ (Prod.ext hsent rfl) ?_
        · simp [clearIdx]
        · exact .access fg (fun _ => rfl) (.finish fg idle _ _)
      case isFalse hsent =>
        have ho : o ≠ .success := by rintro rfl; exact hsent h
        rw [if_neg hsent]
        refine .of_nextByte fg _ _ ?_ (Prod.ext h rfl) ?_
        · simp [clearIdx]
        · rw [afterBytes, if_neg ho]
          exact .finish fg idle _ _

end

/-! ### Every operation -/

/-- The micro-steps an accepted BTE command leaves carry out its one-step meaning. -/
theorem ends_of_exec {i : Instr} {s t : State} (hi : i.isBte = true) (idle : s.work = .none) (h : exec i s = .next t) :
    Ends s (Issued i).2 ((Issued i).1 { s.bus with busy := true, phase := .issue }) t := by
  obtain ⟨⟨-, fg⟩, -⟩ := bte_next hi h
  cases i <;> simp only [exec] at h
  case edge => cases hi
  case sample => cases hi
  all_goals obtain ⟨-, h⟩ := acceptBte_next h
  case cfg =>
    split at h
    · cases h
    · cases h
      refine .access fg (fun _ => rfl) ?_
      refine .access fg (fun _ => rfl) ?_
      refine .access fg (fun _ => rfl) ?_
      exact .done fg idle fun _ => rfl
  case beginTx =>
    cases h
    exact .of_begin fg (.of_finish_afterWait fg idle (by decide) _ _)
  case sel =>
    split at h
    · cases h
    · cases h
      exact .of_sel fg (.of_finish_afterWait fg idle (by decide) _ _)
  case wr =>
    cases h
    exact .of_wr fg (.of_finish_afterWait fg idle (by decide) _ _)
  case rd =>
    cases h
    exact .of_rd fg idle _ _
  case endTx =>
    cases h
    exact .access fg (fun _ => rfl) (.finish fg idle _ _)
  case xmit =>
    split at h
    · cases h
    · obtain ⟨o, ho, rfl⟩ := xmitEnd_next (fun hc => xmitBody_covered _ hc) h
      exact .of_xmit fg idle ho

theorem Reaches.sample {s u t : State} {stage : SampleStage} (fg : s.ctx = .fg) (hw : s.work = .sample stage)
    (h : advanceSample stage s = .next u) : Reaches u t → Reaches s t :=
  .head (by simp [advance, fg, hw, h])

/-- The steps of a `SAMPLE` that nothing interrupts carry out its one-step meaning (42_edge_capture.md R111). -/
theorem sample_reaches {s t : State} (idle : s.work = .none) (h : exec .sample s = .next t) :
    Reaches { s with work := .sample .test } t := by
  simp only [exec, execSample] at h
  obtain ⟨⟨fg, -⟩, h⟩ := acceptSample_next h
  split at h
  case isTrue ready =>
    refine .sample (u := { s with work := .sample .openSection }) fg rfl (if_pos ready) ?_
    refine .sample fg rfl rfl <| .sample fg rfl rfl <| .sample fg rfl rfl <| .sample fg rfl rfl <|
      .sample fg rfl rfl <| .sample fg rfl ?_ (.refl t)
    rw [← State.idle_eq idle] at h
    exact h
  case isFalse ready =>
    cases h
    refine .sample (u := withMeas 0 s) fg rfl ?_ (.refl _)
    rw [← State.idle_eq (s := withMeas 0 s) idle]
    exact if_neg ready

/-- From where acceptance leaves an operation, its micro-steps lead to where its one-step meaning does. -/
theorem reaches_of_exec {i : Instr} {s s1 t : State} (idle : s.work = .none) (h1 : issue i s = .next s1)
    (h : exec i s = .next t) : Reaches s1 t := by
  obtain ⟨rfl, -, rfl⟩ | ⟨hi, -, rfl⟩ := issue_next h1
  · exact sample_reaches idle h
  · exact ends_of_exec hi idle h _

/-- Settles O56: the micro-steps of each operation, proved against its body, end in the state `exec` gives. -/
theorem stepwiseMeetsMeaning : Obligations.StepwiseMeetsMeaning := by
  intro i s s1 t _ idle h1 h
  exact reaches_of_exec idle h1 h

end Sys2Proof.Machine
end

section
/-! What every step keeps (10_state.md R12, R17, R18, R21, R28, R36). A property is kept by `step` as soon as it is kept
by acceptance, by one micro-step and by what moves around the operations: the one-step meanings are micro-steps in a
row. -/

namespace Sys2Proof.Machine

/-! ### What one micro-step can do -/

/-- The operation `ms` has its completion, or the next round of `XMIT`, ahead. -/
def CompletionAhead (ms : List Micro) : Prop := ∃ before last, ms = before ++ [last] ∧ last.Terminal

theorem CompletionAhead.cons {ms : List Micro} (m : Micro) : CompletionAhead ms → CompletionAhead (m :: ms)
  | ⟨before, last, h, ht⟩ => ⟨m :: before, last, by rw [h]; rfl, ht⟩

theorem CompletionAhead.of_cons {ms : List Micro} {m : Micro} (hm : ¬ m.Terminal) :
    CompletionAhead (m :: ms) → CompletionAhead ms
  | ⟨[], last, h, ht⟩ => by
    cases h
    exact absurd ht hm
  | ⟨_ :: before, last, h, ht⟩ => ⟨before, last, (List.cons.inj h).2, ht⟩

/-- The micro-steps to come after `m`, with `rest` behind it and `ITER` = `iter` after it. -/
inductive Continues (nPoll iter : Nat) (m : Micro) (rest : List Micro) : List Micro → Prop where
  /-- what stood behind it -/
  | next (h : ¬ m.Terminal) : Continues nPoll iter m rest rest
  /-- a sample of the wanted flag before that -/
  | sampling (f : LuFlag) (checkAf : Bool) (h : ¬ m.Terminal) :
      Continues nPoll iter m rest (.sampleFlag f checkAf :: rest)
  /-- the `AF` sample of an iteration within the budget before that -/
  | checking (f : LuFlag) (h : ¬ m.Terminal) (hi : iter < nPoll) : Continues nPoll iter m rest (.sampleAf f :: rest)
  /-- something else that takes its place: the end after a failed wait, or the next round of `XMIT` -/
  | replaced (ms : List Micro) (ahead : CompletionAhead ms) (noAf : ∀ f, .sampleAf f ∉ ms) (noCfg : .finishCfg ∉ ms) :
      Continues nPoll iter m rest ms

/-- What a micro-step that goes on does. Most change little: a field has what they do as its default. -/
structure MicroEffect (nPoll : Nat) (m : Micro) (rest : List Micro) (b : Bus) (rest' : List Micro) (b' : Bus) :
    Prop where
  program : Continues nPoll b'.line.iter m rest rest'
  hist : ∃ gained, b.line.hist ++ gained = b'.line.hist
  phase : b'.phase = .idle → b.phase = .idle := by exact id
  iter : b.line.iter ≤ nPoll → (∀ f, m = .sampleAf f → b.line.iter < nPoll) → b'.line.iter ≤ nPoll := by
    exact fun h _ => h
  ccr : (m ≠ .cfgCompute ∧ b'.ccr = b.ccr) ∨ 4 ≤ b'.ccr.toNat := by exact .inl ⟨by simp, rfl⟩
  busy : b'.busy = b.busy := by rfl
  cfgCount : b'.cfgCount = b.cfgCount := by rfl

theorem four_le_ccrValue (kind : DivRaw) (core bus : Word) : 4 ≤ (ccrValue kind core bus).toNat := by
  rw [ccrValue_toNat]
  omega

theorem completionAhead_abandon (f : LuFlag) (o : TxOutcome) : CompletionAhead (abandon f o) := by
  unfold abandon
  split
  · exact ⟨[.loseRdata], .finish o, rfl, .inr (.inr ⟨o, rfl⟩)⟩
  · exact ⟨[], .finish o, rfl, .inr (.inr ⟨o, rfl⟩)⟩

@[simp] theorem sampleAf_not_mem_abandon (f g : LuFlag) (o : TxOutcome) : .sampleAf g ∉ abandon f o := by
  unfold abandon
  split <;> simp

@[simp] theorem finishCfg_not_mem_abandon (f : LuFlag) (o : TxOutcome) : .finishCfg ∉ abandon f o := by
  unfold abandon
  split <;> simp

section
variable (nPoll iter : Nat) (m : Micro) (rest : List Micro) (f : LuFlag) (o : TxOutcome)

theorem Continues.of_abandon : Continues nPoll iter m rest (abandon f o) :=
  .replaced _ (completionAhead_abandon f o) (by simp) (by simp)

theorem Continues.of_clearAf_abandon : Continues nPoll iter m rest (.clearAf :: abandon f o) :=
  .replaced _ (.cons _ (completionAhead_abandon f o)) (by simp) (by simp)

end

theorem microStep_more {p : Params} {txbuf : Memory} {m : Micro} {rest rest' : List Micro} {b b' : Bus}
    (h : microStep p txbuf rest b m = .more rest' b') : MicroEffect p.nPoll m rest b rest' b' := by
  have goes : ¬ m.Terminal → Continues p.nPoll b'.line.iter m rest rest := .next
  have silent : ∃ gained, b.line.hist ++ gained = b.line.hist := ⟨[], List.append_nil _⟩
  cases m <;> simp only [microStep] at h
  case finishCfg => cases h
  case finish => cases h
  case setStart | setAck | writeDr =>
    cases h
    exact { program := goes (by simp [Micro.Terminal]), hist := ⟨[_], rfl⟩, phase := nofun }
  case writeCcr | writeTrise | clearAf | readSr1 | readSr3 | setStop | readDr | endBody =>
    cases h
    exact { program := goes (by simp [Micro.Terminal]), hist := ⟨[_], rfl⟩ }
  case loseRdata | wrDone | stepIdx =>
    cases h
    exact { program := goes (by simp [Micro.Terminal]), hist := silent }
  case cfgCompute =>
    cases h
    exact { program := goes (by simp [Micro.Terminal]), hist := silent, ccr := .inr (four_le_ccrValue _ _ _) }
  case openWait f checkAf =>
    cases h
    exact
      { program := .sampling f checkAf (by simp [Micro.Terminal])
        hist := silent
        phase := nofun
        iter := fun _ _ => Nat.zero_le _ }
  case sampleFlag f checkAf =>
    split at h
    case isFalse =>
      cases h
      exact { program := .of_abandon .., hist := silent }
    case isTrue hlt =>
      split at h
      · cases h
        exact { program := goes (by simp [Micro.Terminal]), hist := ⟨[_], rfl⟩, phase := nofun }
      · split at h
        · cases h
          exact { program := .checking f (by simp [Micro.Terminal]) hlt, hist := ⟨[_], rfl⟩ }
        · cases h
          exact
            { program := .sampling f checkAf (by simp [Micro.Terminal])
              hist := ⟨[_], rfl⟩
              iter := fun _ _ => hlt }
  case sampleAf f =>
    split at h
    · cases h
      exact { program := .of_clearAf_abandon .., hist := ⟨[_], rfl⟩ }
    · cases h
      exact
        { program := .sampling f true (by simp [Micro.Terminal])
          hist := ⟨[_], rfl⟩
          iter := fun _ hlt => hlt f rfl }
  case nextByte =>
    split at h
    · split at h
      · cases h
      · rename_i v _
        cases h
        have ahead : CompletionAhead (wrMicros v ++ [.stepIdx, .nextByte]) :=
          ⟨wrMicros v ++ [.stepIdx], .nextByte, by simp, .inl rfl⟩
        exact { program := .replaced _ ahead (by simp [wrMicros]) (by simp [wrMicros]), hist := silent }
    · cases h
      have ahead : CompletionAhead [.endBody, .finish .success] := ⟨[.endBody], _, rfl, .inr (.inr ⟨_, rfl⟩)⟩
      exact { program := .replaced _ ahead (by simp) (by simp), hist := silent }

/-- A micro-step that completes the operation. -/
theorem microStep_done {p : Params} {txbuf : Memory} {m : Micro} {rest : List Micro} {b b' : Bus}
    (h : microStep p txbuf rest b m = .done b') :
    (m = .finishCfg ∧ b' = release (countCfg b)) ∨ ∃ o, m = .finish o ∧ b' = complete o b := by
  cases m <;> simp only [microStep] at h
  case finishCfg => cases h; exact .inl ⟨rfl, rfl⟩
  case finish o => cases h; exact .inr ⟨o, rfl, rfl⟩
  case sampleFlag =>
    split at h
    · split at h
      · cases h
      · split at h <;> cases h
    · cases h
  case sampleAf => split at h <;> cases h
  case nextByte =>
    split at h
    · split at h <;> cases h
    · cases h
  all_goals cases h

/-! ### What a step of `SAMPLE`, and acceptance, can do -/

/-- `Measure` is at most 5000 (42_edge_capture.md R112). -/
theorem measurePair_le {h l : Half} {v : Nat} (hv : measurePair h l = some v) : v ≤ 5000 := by
  rw [measurePair_eq] at hv
  split at hv
  · cases hv
  · cases hv
    split <;> omega

/-- A measurement that does not fault changes the ECD only and leaves `MEAS` in range. -/
theorem measureSnapshot_next {s t : State} (h : measureSnapshot s = .next t) :
    ∃ e, t = s.withEcd e ∧ e.meas.toNat ≤ 5000 := by
  unfold measureSnapshot at h
  split at h
  · rename_i v hv
    have := measurePair_le hv
    cases h
    exact ⟨_, rfl, by simp; omega⟩
  · split at h
    · cases h
    · cases h
      exact ⟨_, rfl, by simp [withMeas]; omega⟩

/-- Acceptance for step-by-step execution writes the operand latches and `IDX`, nothing else of the BTE. -/
theorem issued_latches (i : Instr) (b : Bus) :
    ∃ (a7 : BitVec 7) (dir : Bool) (txb : Byte) (more : Bool) (len idx : Half),
    (Issued i).1 b = { b with a7 := a7, dir := dir, txb := txb, more := more, len := len, idx := idx } := by
  cases i <;> exact ⟨_, _, _, _, _, _, rfl⟩

theorem completionAhead_issued {i : Instr} (hi : i.isBte = true) : CompletionAhead (Issued i).2 := by
  have ends {ms : List Micro} : CompletionAhead (ms ++ [.finish .success]) := ⟨ms, _, rfl, .inr (.inr ⟨_, rfl⟩)⟩
  cases i with
  | cfg => exact ⟨[.cfgCompute, .writeCcr, .writeTrise], _, rfl, .inr (.inl rfl)⟩
  | beginTx => exact ends
  | sel => exact ends
  | wr => exact ends
  | rd => exact ends
  | endTx => exact ends (ms := [.endBody])
  | xmit => exact ⟨_, _, rfl, .inl rfl⟩
  | sample => cases hi
  | edge => cases hi

/-- A host command that its one-step meaning completes is accepted for step-by-step execution too. -/
theorem issue_of_exec {i : Instr} {s t : State} (hi : i.isHostCommand = true) (h : exec i s = .next t) :
    ∃ s1, issue i s = .next s1 := by
  cases i <;> simp only [exec] at h <;> simp only [issue, issueBte]
  case edge => cases hi
  case sample =>
    obtain ⟨ready, -⟩ := acceptSample_next h
    exact ⟨_, acceptSample_ready ready _⟩
  all_goals
    obtain ⟨ready, h⟩ := acceptBte_next h
    rw [acceptBte_ready ready]
  case cfg | sel | xmit =>
    split at h
    · cases h
    · rename_i hn
      exact ⟨_, if_neg hn⟩
  all_goals exact ⟨_, rfl⟩

/-! ### The packaged induction -/

/-- What moves around the operations: the host's operands and buffer, the LU, the ECD's record, the processor's
signals and the stimuli to come. -/
structure Surroundings where
  clkCore  : Word
  clkBus   : Word
  lu       : Lu
  ecd      : Ecd
  ctx      : Ctx
  cnt      : Half
  pin      : Bool
  edgePend : Bool
  txbuf    : Memory
  trace    : List Stimulus

/-- The surroundings `s` has. -/
def State.surroundings (s : State) : Surroundings where
  clkCore := s.bus.clkCore
  clkBus := s.bus.clkBus
  lu := s.bus.line.lu
  ecd := s.ecd
  ctx := s.ctx
  cnt := s.cnt
  pin := s.pin
  edgePend := s.edgePend
  txbuf := s.txbuf
  trace := s.trace

/-- `s` in other surroundings. -/
def State.within (s : State) (x : Surroundings) : State :=
  { s with
    bus := { s.bus with clkCore := x.clkCore, clkBus := x.clkBus, line := { s.bus.line with lu := x.lu } }
    ecd := x.ecd
    ctx := x.ctx
    cnt := x.cnt
    pin := x.pin
    edgePend := x.edgePend
    txbuf := x.txbuf
    trace := x.trace }

/-- A property that is kept by everything a step is made of. -/
structure Kept (P : State → Prop) : Prop where
  around : ∀ s x, P s → P (s.within x)
  issued : ∀ i s t, P s → s.work = .none → issue i s = .next t → P t
  advanced : ∀ s t, P s → advance s = .next t → P t

section
variable {P : State → Prop} {s t : State} (k : Kept P) (hs : P s)
include k hs

/-- An operation run to its end: a host command is the micro-steps of its step-by-step form (O56). -/
theorem Kept.exec {i : Instr} (idle : i.isHostCommand = true → s.work = .none) (h : exec i s = .next t) : P t := by
  by_cases hi : i.isHostCommand = true
  · obtain ⟨s1, h1⟩ := issue_of_exec hi h
    exact (reaches_of_exec (idle hi) h1 h).keeps k.advanced (k.issued i s s1 hs (idle hi) h1)
  · cases i <;> simp only [Instr.isHostCommand, not_true_eq_false] at hi
    obtain ⟨rfl, -⟩ | ⟨-, -, rfl⟩ := edge_next h
    · exact hs
    · exact k.around s { s.surroundings with cnt := _, pin := _, ecd := _ } hs

theorem Kept.effect (e : Effect s t) : P t := by
  cases e with
  | ran i free h => exact k.exec hs (fun hi => (free hi).1) h
  | began i free h => exact k.issued i s t hs free h
  | moved trace h => exact k.advanced _ t (k.around s { s.surroundings with trace := trace } hs) h
  | clocks core bus _ _ h =>
    subst h
    exact k.around s { s.surroundings with clkCore := core, clkBus := bus } hs
  | filled m _ _ _ h =>
    subst h
    exact k.around s { s.surroundings with txbuf := m } hs
  | environment cnt pin edgePend ctx lu h =>
    subst h
    exact k.around s { s.surroundings with cnt := cnt, pin := pin, edgePend := edgePend, ctx := ctx, lu := lu } hs

theorem Kept.step (h : step s = .next t) : P t := by
  obtain ⟨-, rfl⟩ | ⟨-, -, rfl⟩ | ⟨x, rest, -, e⟩ := step_next h
  · exact hs
  · exact k.around s { s.surroundings with edgePend := false, ecd := captureEdge s.cnt s.pin s.ecd } hs
  · exact k.effect (k.around s { s.surroundings with trace := rest } hs) e

end

/-! ### `BUSY`, `PHASE` and the operation in progress -/

theorem Continues.completionAhead {n iter : Nat} {m : Micro} {rest rest' : List Micro}
    (c : Continues n iter m rest rest') (h : CompletionAhead (m :: rest)) : CompletionAhead rest' := by
  cases c with
  | next hm => exact h.of_cons hm
  | sampling f checkAf hm => exact (h.of_cons hm).cons _
  | checking f hm _ => exact (h.of_cons hm).cons _
  | replaced _ ahead => exact ahead

theorem busyPhaseAgree_kept : Kept BusyPhaseAgree where
  around _ _ h := h
  issued i s t := by
    rintro ⟨hphase, hbusy, -⟩ idle h
    obtain ⟨-, -, rfl⟩ | ⟨hi, -, rfl⟩ := issue_next h
    · exact ⟨hphase, by simpa [idle] using hbusy, by simp⟩
    · obtain ⟨_, _, _, _, _, _, hb⟩ := issued_latches i { s.bus with busy := true, phase := .issue }
      simp only [hb]
      exact ⟨by simp, by simp, fun ms hms => by cases hms; exact completionAhead_issued hi⟩
  advanced s t := by
    rintro ⟨hphase, hbusy, hahead⟩ h
    obtain rfl | ⟨hw, -⟩ | ⟨m, rest, rest', b, -, hw, hm, rfl⟩ | ⟨m, rest, b, -, hw, hm, rfl⟩ | ⟨stage, -, hw, h⟩ :=
      advance_next h
    · exact ⟨hphase, hbusy, hahead⟩
    · obtain ⟨before, last, h, -⟩ := hahead [] hw
      simp at h
    · have e := microStep_more hm
      have busy : b.busy = true := by rw [e.busy]; exact hbusy.2 ⟨_, hw⟩
      refine ⟨⟨fun hi => ?_, by simp [busy]⟩, by simp [busy], fun ms hms => ?_⟩
      · rw [State.withBus_bus, e.busy]
        exact hphase.1 (e.phase hi)
      · cases hms
        exact e.program.completionAhead (hahead _ hw)
    · obtain ⟨-, rfl⟩ | ⟨o, -, rfl⟩ := microStep_done hm <;> exact ⟨by simp, by simp, by simp⟩
    · obtain ⟨hb, -, -, hn⟩ := advanceSample_next h
      refine ⟨by rw [hb]; exact hphase, ?_, fun ms hms => absurd hms (hn ms)⟩
      rw [hb, hbusy]
      simp [hn, hw]

/-- Settles O52: acceptance and each micro-step keep the agreement. -/
theorem stepKeepsBusyPhaseAgree : Obligations.StepKeepsBusyPhaseAgree :=
  fun _ _ hs h => busyPhaseAgree_kept.step hs h

/-! ### `ITER` -/

theorem sampleAf_not_mem_issued (i : Instr) (f : LuFlag) : .sampleAf f ∉ (Issued i).2 := by
  cases i <;> simp [Issued, beginMicros, selMicros, wrMicros, rdMicros]
  case rd more => cases more <;> simp

/-- The `AF` sample stands first where it stands at all, and only within the budget. -/
theorem Continues.sampleAf_first {n iter : Nat} {m : Micro} {rest rest' : List Micro}
    (c : Continues n iter m rest rest') (h : ∀ f, .sampleAf f ∉ rest) :
    (∀ f, .sampleAf f ∉ rest'.tail) ∧ ∀ f, .sampleAf f ∈ rest' → iter < n := by
  have ht {ms : List Micro} (h : ∀ f, .sampleAf f ∉ ms) : ∀ f, .sampleAf f ∉ ms.tail :=
    fun f hf => h f (List.mem_of_mem_tail hf)
  cases c with
  | next => exact ⟨ht h, fun f hf => absurd hf (h f)⟩
  | sampling => exact ⟨h, fun f hf => absurd hf (by simp [h])⟩
  | checking _ _ hi => exact ⟨h, fun _ _ => hi⟩
  | replaced _ _ noAf => exact ⟨ht noAf, fun f hf => absurd hf (noAf f)⟩

theorem iterWithinBudget_kept : Kept IterWithinBudget where
  around _ _ h := h
  issued i s t := by
    rintro ⟨hle, -⟩ - h
    obtain ⟨-, -, rfl⟩ | ⟨-, -, rfl⟩ := issue_next h
    · exact ⟨hle, by simp⟩
    · obtain ⟨_, _, _, _, _, _, hb⟩ := issued_latches i { s.bus with busy := true, phase := .issue }
      simp only [hb]
      refine ⟨hle, fun ms hms => ?_⟩
      cases hms
      exact ⟨fun f hf => sampleAf_not_mem_issued i f (List.mem_of_mem_tail hf),
        fun f hf => absurd hf (sampleAf_not_mem_issued i f)⟩
  advanced s t := by
    rintro ⟨hle, haf⟩ h
    obtain rfl | ⟨-, rfl⟩ | ⟨m, rest, rest', b, -, hw, hm, rfl⟩ | ⟨m, rest, b, -, -, hm, rfl⟩ | ⟨stage, -, -, h⟩ :=
      advance_next h
    · exact ⟨hle, haf⟩
    · exact ⟨hle, by simp⟩
    · have e := microStep_more hm
      obtain ⟨hrest, hlt⟩ := haf _ hw
      refine ⟨e.iter hle fun f hf => hlt f (by simp [hf]), fun ms hms => ?_⟩
      cases hms
      exact e.program.sampleAf_first hrest
    · obtain ⟨-, rfl⟩ | ⟨o, -, rfl⟩ := microStep_done hm <;> exact ⟨hle, by simp⟩
    · obtain ⟨hb, hp, -, hn⟩ := advanceSample_next h
      exact ⟨by rw [hb, hp]; exact hle, fun ms hms => absurd hms (hn ms)⟩

/-- Settles O53; the agreement of `BUSY` and `PHASE` is not needed. -/
theorem stepKeepsIterWithinBudget : Obligations.StepKeepsIterWithinBudget :=
  fun _ _ _ hs h => iterWithinBudget_kept.step hs h

/-! ### The divider -/

/-- Where `ms` completes a `CFG`, it computes the divider before. -/
def ComputesFirst (ms : List Micro) : Prop :=
  ∀ before after, ms = before ++ .finishCfg :: after → .cfgCompute ∈ before

theorem ComputesFirst.of_not_mem {ms : List Micro} (h : .finishCfg ∉ ms) : ComputesFirst ms := by
  rintro before after rfl
  simp at h

theorem ComputesFirst.cons {ms : List Micro} {m : Micro} (hm : m ≠ .finishCfg) (h : ComputesFirst ms) :
    ComputesFirst (m :: ms) := by
  rintro (_ | ⟨_, before⟩) after e
  · cases e
    exact absurd rfl hm
  · exact .tail _ (h before after (List.cons.inj e).2)

theorem ComputesFirst.of_cons {ms : List Micro} {m : Micro} (hm : m ≠ .cfgCompute) (h : ComputesFirst (m :: ms)) :
    ComputesFirst ms := by
  rintro before after rfl
  simpa [hm.symm] using h (m :: before) after rfl

theorem not_computesFirst_finishCfg (ms : List Micro) : ¬ ComputesFirst (.finishCfg :: ms) :=
  fun h => by simpa using h [] ms rfl

theorem dividerInRange_iff {s : State} : DividerInRange s ↔
    (0 < s.bus.cfgCount → 4 ≤ s.bus.ccr.toNat) ∧
      ∀ ms, s.work = .bte ms → ComputesFirst ms ∨ 4 ≤ s.bus.ccr.toNat := by
  refine and_congr_right fun _ => ⟨fun h ms hms => ?_, fun h before after hw => ?_⟩
  · by_cases hccr : 4 ≤ s.bus.ccr.toNat
    · exact .inr hccr
    · exact .inl fun before after e => (h before after (e ▸ hms)).resolve_right hccr
  · exact (h _ hw).imp_left fun h => h before after rfl

theorem computesFirst_cfgCompute (ms : List Micro) : ComputesFirst (.cfgCompute :: ms) := by
  rintro (_ | ⟨_, before⟩) after e
  · cases e
  · cases (List.cons.inj e).1
    exact List.mem_cons_self

theorem computesFirst_issued (i : Instr) : ComputesFirst (Issued i).2 := by
  cases i
  case cfg => exact computesFirst_cfgCompute _
  all_goals
    refine .of_not_mem ?_
    simp [Issued, beginMicros, selMicros, wrMicros, rdMicros]
  case rd more => cases more <;> simp

theorem Continues.computesFirst {n iter : Nat} {m : Micro} {rest rest' : List Micro}
    (c : Continues n iter m rest rest') (hm : m ≠ .cfgCompute) (h : ComputesFirst (m :: rest)) :
    ComputesFirst rest' := by
  cases c with
  | next => exact h.of_cons hm
  | sampling => exact (h.of_cons hm).cons (by simp)
  | checking => exact (h.of_cons hm).cons (by simp)
  | replaced _ _ _ noCfg => exact .of_not_mem noCfg

theorem dividerInRange_kept : Kept DividerInRange where
  around _ _ h := h
  issued i s t := by
    simp only [dividerInRange_iff]
    rintro ⟨hcfg, -⟩ - h
    obtain ⟨-, -, rfl⟩ | ⟨-, -, rfl⟩ := issue_next h
    · exact ⟨hcfg, by simp⟩
    · obtain ⟨_, _, _, _, _, _, hb⟩ := issued_latches i { s.bus with busy := true, phase := .issue }
      simp only [hb]
      refine ⟨hcfg, fun ms hms => ?_⟩
      cases hms
      exact .inl (computesFirst_issued i)
  advanced s t := by
    simp only [dividerInRange_iff]
    rintro ⟨hcfg, hwork⟩ h
    obtain rfl | ⟨-, rfl⟩ | ⟨m, rest, rest', b, -, hw, hm, rfl⟩ | ⟨m, rest, b, -, hw, hm, rfl⟩ | ⟨stage, -, -, h⟩ :=
      advance_next h
    · exact ⟨hcfg, hwork⟩
    · exact ⟨hcfg, by simp⟩
    · have e := microStep_more hm
      obtain ⟨hne, hccr⟩ | hccr := e.ccr
      · simp only [State.withBus_bus, e.cfgCount, hccr]
        refine ⟨hcfg, fun ms hms => ?_⟩
        cases hms
        exact (hwork _ hw).imp_left (e.program.computesFirst hne)
      · exact ⟨fun _ => hccr, fun _ _ => .inr hccr⟩
    · obtain ⟨rfl, rfl⟩ | ⟨o, -, rfl⟩ := microStep_done hm
      · exact ⟨fun _ => (hwork _ hw).resolve_left (not_computesFirst_finishCfg _), by simp⟩
      · exact ⟨hcfg, by simp⟩
    · obtain ⟨hb, -, -, hn⟩ := advanceSample_next h
      exact ⟨by rw [hb]; exact hcfg, fun ms hms => absurd hms (hn ms)⟩

/-- Settles O54; the agreement of `BUSY` and `PHASE` is not needed. -/
theorem stepKeepsDividerInRange : Obligations.StepKeepsDividerInRange :=
  fun _ _ _ hs h => dividerInRange_kept.step hs h

/-! ### The interrupt enable -/

theorem interruptsOn_kept : Kept InterruptsOnOutsideSection where
  around _ _ h := h
  issued i s t := by
    rintro ⟨hoff, -⟩ idle h
    have on : s.ie ≠ false := fun h => by simpa [idle] using hoff h
    obtain ⟨-, -, rfl⟩ | ⟨-, -, rfl⟩ := issue_next h
    · exact ⟨fun h => absurd h on, fun stage hw => by cases hw; rfl⟩
    · exact ⟨fun h => absurd h on, by simp⟩
  advanced s t := by
    rintro ⟨hoff, hsaved⟩ h
    obtain rfl | ⟨hw, rfl⟩ | ⟨m, rest, rest', b, -, hw, -, rfl⟩ | ⟨m, rest, b, -, hw, -, rfl⟩ | ⟨stage, -, hw, h⟩ :=
      advance_next h
    · exact ⟨hoff, hsaved⟩
    · exact ⟨fun h => by simpa [hw] using hoff h, by simp⟩
    · exact ⟨fun h => by simpa [hw] using hoff h, by simp⟩
    · exact ⟨fun h => by simpa [hw] using hoff h, by simp⟩
    · have saved := hsaved _ hw
      have on : stage.critical = false → s.ie = true := fun hc => by
        by_contra hie
        obtain ⟨stage', hw', hc'⟩ := hoff (by simpa using hie)
        rw [hw] at hw'
        cases hw'
        simp [hc] at hc'
      cases stage <;> simp only [advanceSample] at h
      case test =>
        split at h
        · cases h
          exact ⟨by simp [on rfl], fun _ hw' => by cases hw'; rfl⟩
        · cases h
          exact ⟨by simp [withMeas, on rfl], by simp⟩
      case openSection =>
        cases h
        exact ⟨fun _ => ⟨_, rfl, rfl⟩, fun _ hw' => by cases hw'; exact on rfl⟩
      case copyHigh | copyLow | clearReady =>
        cases h
        exact ⟨fun _ => ⟨_, rfl, rfl⟩, fun _ hw' => by cases hw'; exact saved⟩
      case closeSection =>
        cases h
        cases saved
        exact ⟨by simp, fun _ hw' => by cases hw'; rfl⟩
      case measure =>
        obtain ⟨e, rfl, -⟩ := measureSnapshot_next h
        exact ⟨by simp [on rfl], by simp⟩

/-- Settles O55: only `SAMPLE` opens a critical section, and it restores what it saved. -/
theorem stepKeepsInterruptsOn : Obligations.StepKeepsInterruptsOn :=
  fun _ _ hs h => interruptsOn_kept.step hs h

/-! ### The history and the parameters -/

/-- The history extends `hist`, and the parameters are `params`. -/
def Extends (params : Params) (hist : List LuEvent) (s : State) : Prop :=
  hist <+: s.bus.line.hist ∧ s.params = params

theorem extends_kept (params : Params) (hist : List LuEvent) : Kept (Extends params hist) where
  around _ _ h := h
  issued i s t := by
    rintro hs - h
    obtain ⟨-, -, rfl⟩ | ⟨-, -, rfl⟩ := issue_next h
    · exact hs
    · obtain ⟨_, _, _, _, _, _, hb⟩ := issued_latches i { s.bus with busy := true, phase := .issue }
      simp only [hb]
      exact hs
  advanced s t := by
    rintro ⟨hh, hp⟩ h
    obtain rfl | ⟨-, rfl⟩ | ⟨m, rest, rest', b, -, hw, hm, rfl⟩ | ⟨m, rest, b, -, -, hm, rfl⟩ | ⟨stage, -, -, h⟩ :=
      advance_next h
    · exact ⟨hh, hp⟩
    · exact ⟨hh, hp⟩
    · exact ⟨hh.trans (microStep_more hm).hist, hp⟩
    · obtain ⟨-, rfl⟩ | ⟨o, -, rfl⟩ := microStep_done hm <;> exact ⟨hh, hp⟩
    · obtain ⟨hb, hp', -⟩ := advanceSample_next h
      exact ⟨by rw [hb]; exact hh, hp'.trans hp⟩

/-- Settles O48: being an extension of what `s` has is itself kept. -/
theorem historyOnlyGrows : Obligations.HistoryOnlyGrows := by
  intro s t h
  obtain ⟨⟨gained, hg⟩, hp⟩ := (extends_kept s.params s.bus.line.hist).step ⟨⟨[], List.append_nil _⟩, rfl⟩ h
  exact ⟨⟨gained, hg.symm⟩, hp⟩

end Sys2Proof.Machine
end

section
/-! The units are disjoint, and what each operation can do to the other's record (10_state.md R10, R31, R32). -/

namespace Sys2Proof.Machine

/-- Settles O38: both results of a measurement, and the 0 of a pair that is not ready, are in range. -/
theorem measurementInRange : Obligations.MeasurementInRange := by
  intro s t h
  simp only [exec, execSample] at h
  obtain ⟨-, h⟩ := acceptSample_next h
  split at h
  · obtain ⟨e, rfl, hle⟩ := measureSnapshot_next h
    exact hle
  · cases h
    simp [withMeas]

/-! ### What a BTE operation reads and writes -/

/-- `s` and `u` agree in everything a BTE operation reads. -/
structure BteAgree (s u : State) : Prop where
  bus : u.bus = s.bus
  ctx : u.ctx = s.ctx
  params : u.params = s.params
  txbuf : u.txbuf = s.txbuf

/-- A BTE operation writes the BTE only, and what it writes there depends on nothing but what `BteAgree` names. -/
theorem bte_depends {i : Instr} {s t : State} (hi : i.isBte = true) (h : exec i s = .next t) :
    ∃ b, t = s.withBus b ∧ ∀ u, BteAgree s u → exec i u = .next (u.withBus b) := by
  have ready (u : State) (a : BteAgree s u) : u.BteReady := by
    obtain ⟨⟨hb, hc⟩, -⟩ := bte_next hi h
    exact ⟨by rw [a.bus, hb], by rw [a.ctx, hc]⟩
  cases i <;> simp only [exec] at h
  case edge => cases hi
  case sample => cases hi
  all_goals obtain ⟨-, h⟩ := acceptBte_next h
  case cfg | sel =>
    split at h
    · cases h
    · rename_i hn
      cases h
      refine ⟨_, rfl, fun u a => ?_⟩
      simp only [exec, execCfg, execSel, acceptBte_ready (ready u a), a.bus, a.params]
      exact if_neg hn
  case xmit =>
    split at h
    · cases h
    · rename_i hn
      obtain ⟨o, ho, rfl⟩ := xmitEnd_next (fun hc => xmitBody_covered _ hc) h
      refine ⟨_, rfl, fun u a => ?_⟩
      simp only [exec, execXmit, acceptBte_ready (ready u a), a.bus, a.params, a.txbuf]
      rw [if_neg hn]
      exact xmitEnd_some u _ ho
  all_goals
    cases h
    refine ⟨_, rfl, fun u a => ?_⟩
    simp only [exec, execBegin, execWr, execRd, execEnd, acceptBte_ready (ready u a), a.bus, a.params]

/-! ### What an ECD operation reads and writes -/

theorem captureEdge_ready (now : Half) (level : Bool) (e : Ecd) :
    (captureEdge now level e).ready = (!level || e.ready) := by
  cases level <;> rfl

theorem measureSnapshot_withBus {s t : State} (b : Bus) (h : measureSnapshot s = .next t) :
    measureSnapshot (s.withBus b) = .next (t.withBus b) := by
  unfold measureSnapshot at h ⊢
  simp only [State.withBus_ecd, State.withBus_params]
  split at h
  · cases h
    rfl
  · split at h
    · cases h
    · cases h
      rfl

/-- An ECD operation writes nothing a BTE operation reads, and reads no BTE register. -/
theorem ecd_depends {i : Instr} {s t : State} (hi : i.isBte = false) (h : exec i s = .next t) :
    BteAgree s t ∧ ∀ b, exec i (s.withBus b) = .next (t.withBus b) := by
  cases i <;> simp only [Instr.isBte, Bool.true_eq_false] at hi
  case edge now level =>
    refine ⟨?_, fun b => ?_⟩
    · obtain ⟨rfl, -⟩ | ⟨-, -, rfl⟩ := edge_next h <;> exact ⟨rfl, rfl, rfl, rfl⟩
    · simp only [exec, execEdge] at h ⊢
      split at h <;> rename_i hn
      · cases h
        exact if_pos hn
      · cases h
        exact if_neg hn
  case sample =>
    refine ⟨?_, fun b => ?_⟩
    · obtain ⟨-, e, rfl, -⟩ := sample_next h
      exact ⟨rfl, rfl, rfl, rfl⟩
    · simp only [exec, execSample] at h ⊢
      obtain ⟨ready, h⟩ := acceptSample_next h
      rw [acceptSample_ready (s := s.withBus b) ready]
      split at h <;> rename_i hn
      · exact (if_pos hn).trans (measureSnapshot_withBus b h)
      · cases h
        exact if_neg hn

/-- Settles O43, from what each kind of operation depends on. -/
theorem unitsAreDisjoint : Obligations.UnitsAreDisjoint := by
  intro i s t h
  refine ⟨fun hi => ?_, fun hi => ?_⟩
  · obtain ⟨b, rfl, depends⟩ := bte_depends hi h
    exact ⟨rfl, rfl, rfl, rfl, fun e ie cnt pin => depends _ ⟨rfl, rfl, rfl, rfl⟩⟩
  · obtain ⟨agree, depends⟩ := ecd_depends hi h
    exact ⟨agree.bus, depends⟩

/-- Settles O44: each operation answers alike from before and from after the other. -/
theorem unitsCommute : Obligations.UnitsCommute := by
  intro i j s u hi hj
  constructor
  · rintro ⟨t, ht, hu⟩
    obtain ⟨b, rfl, depends⟩ := bte_depends hi ht
    obtain ⟨agree, back⟩ := ecd_depends hj hu
    refine ⟨u.withBus s.bus, back s.bus, ?_⟩
    have hv : exec i (u.withBus s.bus) = .next (u.withBus b) :=
      depends (u.withBus s.bus) ⟨rfl, agree.ctx, agree.params, agree.txbuf⟩
    rw [hv, show b = u.bus from agree.bus.symm]
    rfl
  · rintro ⟨v, hv, hu⟩
    obtain ⟨agree, depends'⟩ := ecd_depends hj hv
    obtain ⟨b, rfl, depends⟩ := bte_depends hi hu
    exact ⟨s.withBus b, depends s ⟨agree.bus.symm, agree.ctx.symm, agree.params.symm, agree.txbuf.symm⟩, depends' b⟩

/-- Settles O45, kind of operation by kind. -/
theorem readyChangesOnlyAsStated : Obligations.ReadyChangesOnlyAsStated := by
  intro i s t h
  by_cases hi : i.isBte = true
  · obtain ⟨-, b, rfl⟩ := bte_next hi h
    refine ⟨fun h0 h1 => ?_, fun h1 h0 => ?_, ?_⟩
    · exact absurd h1 (by simp [h0])
    · exact absurd h0 (by simp [h1])
    · rintro now rfl
      cases hi
  · cases i <;> simp only [Instr.isBte, not_true_eq_false] at hi
    case edge now level =>
      obtain ⟨rfl, hoff⟩ | ⟨-, -, rfl⟩ := edge_next h
      · refine ⟨fun h0 h1 => ?_, fun h1 h0 => ?_, fun _ _ hon => ?_⟩
        · exact absurd h1 (by simp [h0])
        · exact absurd h0 (by simp [h1])
        · exact absurd hon (by simp [hoff])
      · simp only [captureEdge_ready]
        cases level with
        | true => exact ⟨fun h0 h1 => absurd h1 (by simp [h0]), fun h1 h0 => absurd h0 (by simp [h1]), nofun⟩
        | false => exact ⟨fun _ _ => ⟨now, rfl⟩, fun _ => nofun, fun _ _ _ => rfl⟩
    case sample =>
      obtain ⟨-, e, rfl, hr, -⟩ := sample_next h
      exact ⟨fun _ h1 => absurd h1 (by simp [hr]), fun _ _ => rfl, fun _ => nofun⟩

/-! ### One stimulus -/

/-- Where no pending edge comes first, a step is its next stimulus. -/
theorem step_of_trace {s : State} {x : Stimulus} {rest : List Stimulus} (hs : s.servesEdge = false)
    (ht : s.trace = x :: rest) : step s = apply x { s with trace := rest } := by
  simp [step, hs, State.fetch, ht]

/-- Settles O9, clause by clause. -/
theorem edgePendingAndContext : Obligations.EdgePendingAndContext := by
  intro s rest
  refine ⟨fun hp hie hfg => ?_, fun hs ht => ?_, fun hs ht hie hfg => ?_, fun hs ht hoff => ?_, fun hs ht => ?_,
    fun ht hirq => ?_⟩
  · have hs : s.servesEdge = true := by simp [State.servesEdge, State.handlerEnabled, hp, hie, hfg]
    rw [step, if_pos hs, serveEdge, runEdgeHandler_eq _ (by exact hfg)]
  · rw [step_of_trace hs ht]
    rfl
  · rw [step_of_trace hs ht]
    exact if_pos (by simp [State.handlerEnabled, hie, hfg])
  · rw [step_of_trace hs ht]
    exact if_neg (by obtain h | h := hoff <;> simp [State.handlerEnabled, h])
  · rw [step_of_trace hs ht]
    rfl
  · rw [step_of_trace (by simp [State.servesEdge, State.handlerEnabled, hirq]) ht]
    exact if_pos hirq

/-- A host write that comes while an operation is in progress waits, staying next. -/
theorem hostWrite_waits {s : State} {x : Stimulus} {rest : List Stimulus} (busy : s.foregroundFree = false)
    (ht : s.trace = x :: rest) (written : State) : hostWrite x { s with trace := rest } written = advance s := by
  rw [hostWrite, foregroundMove_waits (s := { s with trace := rest }) busy x (by simp), ← ht]

/-- Settles O60: a free foreground makes the write, any other lets it wait. -/
theorem hostWrites : Obligations.HostWrites := by
  intro s x rest hs ht hx
  rw [step_of_trace hs ht]
  refine ⟨fun hbusy => ?_, fun hb hw => ?_⟩
  · have busy : s.foregroundFree = false := by
      rw [← Bool.not_eq_true, foregroundFree_iff]
      rintro ⟨h1, h2⟩
      simp [h1, h2] at hbusy
    cases x
    case setClkCore | setClkBus | fillTxbuf | loadTxbuf => exact hostWrite_waits busy ht _
    all_goals cases hx
  · have free : State.foregroundFree { s with trace := rest } = true := foregroundFree_iff.2 ⟨hw, hb⟩
    have made (u : State) : hostWrite x { s with trace := rest } u = .next u := foregroundMove_free free _ _
    refine ⟨?_, ?_, ?_, ?_⟩
    · rintro hz rfl
      exact made _
    · rintro hz rfl
      exact made _
    · rintro index v rfl
      exact ⟨_, made _, rfl, Memory.read_write_self _ _ _, fun a ha => Memory.read_write_other _ _ _ _ ha⟩
    · rintro bytes rfl
      exact ⟨_, made _, rfl, fun a => by simp [Memory.read_ofBytes]⟩

end Sys2Proof.Machine
end

section
/-! The transmit buffer: nothing but the host writes it, and every step keeps its canonical form (20_memory.md R40,
R41). -/

namespace Sys2Proof.Machine

/-! ### Operations leave the buffer alone -/

theorem exec_txbuf {i : Instr} {s t : State} (h : exec i s = .next t) : t.txbuf = s.txbuf := by
  cases hi : i.isBte with
  | true =>
    obtain ⟨-, b, rfl⟩ := bte_next hi h
    rfl
  | false => exact (ecd_depends hi h).1.txbuf

theorem issue_txbuf {i : Instr} {s t : State} (h : issue i s = .next t) : t.txbuf = s.txbuf := by
  obtain ⟨-, -, rfl⟩ | ⟨-, -, rfl⟩ := issue_next h <;> rfl

theorem advance_txbuf {s t : State} (h : advance s = .next t) : t.txbuf = s.txbuf := by
  obtain rfl | ⟨-, rfl⟩ | ⟨_, _, _, _, -, -, -, rfl⟩ | ⟨_, _, _, -, -, -, rfl⟩ | ⟨_, -, -, h⟩ := advance_next h
  case inr.inr.inr.inr =>
    obtain ⟨-, -, ht, -⟩ := advanceSample_next h
    exact ht
  all_goals rfl

/-- Settles O42. -/
theorem execNeverWritesTxbuf : Obligations.ExecNeverWritesTxbuf := by
  intro i s t h
  exact ⟨exec_txbuf h, fun a => by rw [exec_txbuf h]⟩

/-! ### The canonical form -/

theorem TxbufCanonical.of_eq {s t : State} (ht : t.txbuf = s.txbuf) (hs : TxbufCanonical s) : TxbufCanonical t := by
  rwa [TxbufCanonical, ht]

/-- Of all that a stimulus can do, only the host's filling touches the buffer. -/
theorem Effect.txbufCanonical {s t : State} (e : Effect s t) (hs : TxbufCanonical s) : TxbufCanonical t := by
  cases e with
  | ran _ _ h => exact hs.of_eq (exec_txbuf h)
  | began _ _ h => exact hs.of_eq (issue_txbuf h)
  | moved _ h => exact hs.of_eq (advance_txbuf h)
  | clocks _ _ _ _ h => exact hs.of_eq (by rw [h, State.withBus_txbuf])
  | filled m wf _ _ h =>
    subst h
    exact wf hs
  | environment _ _ _ _ _ h => exact hs.of_eq (by rw [h])

/-- Settles O51: a step waits, serves an edge, or takes one stimulus. -/
theorem stepKeepsTxbufCanonical : Obligations.StepKeepsTxbufCanonical := by
  intro s t hs h
  obtain ⟨-, rfl⟩ | ⟨-, -, rfl⟩ | ⟨x, rest, -, e⟩ := step_next h
  · exact hs
  · exact hs
  · exact e.txbufCanonical hs

/-- Settles O59. -/
theorem txbufReadAfterFill : Obligations.TxbufReadAfterFill := fun m i j v =>
  ⟨m.read_write_self i v, m.read_write_other i j v, m.wf_write i v⟩

end Sys2Proof.Machine
end

section
/-! A handler run between two steps of an operation in progress (20_memory.md R49, 60_exceptions.md R127). -/

namespace Sys2Proof.Machine

/-- `s` after one handler run that captured `now` and read `level` (42_edge_capture.md R110). -/
def State.handled (s : State) (now : Half) (level : Bool) : State :=
  { s with cnt := now, pin := level, ecd := captureEdge now level s.ecd }

theorem exec_edge_enabled {s : State} (ie : s.ie = true) (fg : s.ctx = .fg) (now : Half) (level : Bool) :
    exec (.edge now level) s = .next (s.handled now level) := by
  have enabled : s.handlerEnabled = true := by simp [State.handlerEnabled, ie, fg]
  rw [exec, execEdge, if_pos enabled, runEdgeHandler_eq _ (by exact fg)]
  rfl

/-- A micro-step of a BTE operation reads and writes nothing that a handler run touches. -/
theorem advanceBte_handled {m : Micro} {rest : List Micro} {s t : State} (now : Half) (level : Bool)
    (h : advanceBte m rest s = .next t) :
    advanceBte m rest (s.handled now level) = .next (t.handled now level) ∧ t.ie = s.ie ∧ t.ctx = s.ctx := by
  simp only [advanceBte, State.handled] at h ⊢
  split at h <;> cases h <;> exact ⟨rfl, rfl, rfl⟩

theorem advance_bte_handled {s t : State} {ms : List Micro} (hw : s.work = .bte ms) (fg : s.ctx = .fg) (now : Half)
    (level : Bool) (h : advance s = .next t) :
    advance (s.handled now level) = .next (t.handled now level) ∧ t.ie = s.ie ∧ t.ctx = s.ctx := by
  cases ms with
  | nil =>
    have advanced (u : State) (hu : u.work = .bte []) (hc : u.ctx = .fg) :
        advance u = .next { u with work := .none } := by simp [advance, hu, hc]
    rw [advanced s hw fg] at h
    cases h
    exact ⟨advanced (s.handled now level) hw fg, rfl, rfl⟩
  | cons m rest =>
    have advanced (u : State) (hu : u.work = .bte (m :: rest)) (hc : u.ctx = .fg) :
        advance u = advanceBte m rest u := by simp [advance, hu, hc]
    rw [advanced s hw fg] at h
    rw [advanced (s.handled now level) hw fg]
    exact advanceBte_handled now level h

/-- Settles O57: the micro-step does the same from the state the handler run leaves. -/
theorem handlerRunCommutesWithMicroStep : Obligations.HandlerRunCommutesWithMicroStep := by
  intro s s1 ms now level hw ie fg h
  obtain ⟨handled, ie', fg'⟩ := advance_bte_handled hw fg now level h
  exact ⟨s.handled now level, s1.handled now level, exec_edge_enabled ie fg now level, handled,
    exec_edge_enabled (ie'.trans ie) (fg'.trans fg) now level⟩

/-- Step 1 of a `SAMPLE` that finds `READY` set (42_edge_capture.md R111). -/
theorem advance_sample_test {s : State} (hw : s.work = .sample .test) (ready : s.ecd.ready = true)
    (fg : s.ctx = .fg) : advance s = .next { s with work := .sample .openSection } := by
  simp [advance, advanceSample, hw, ready, fg]

/-- Settles O58: a handler run never clears `READY`, so step 1 finds it set after the run as before it. -/
theorem handlerRunBetweenSampleSteps : Obligations.HandlerRunBetweenSampleSteps := by
  intro s s1 u now level hw ready ie fg h1 hu
  rw [advance_sample_test hw ready fg] at h1
  cases h1
  rw [exec_edge_enabled (by exact ie) (by exact fg)] at hu
  cases hu
  have ready' : (s.handled now level).ecd.ready = true := by simp [State.handled, captureEdge_ready, ready]
  exact ⟨s.handled now level, exec_edge_enabled ie fg now level,
    advance_sample_test (by exact hw) ready' (by exact fg)⟩

end Sys2Proof.Machine
end

section
/-! Everything `XMIT` can do, said once: its body, where it ended and the accesses it made on the way
(41_bus_composite.md R100, R101). -/

namespace Sys2Proof.Machine

theorem waitEnds_checkAf {n : Nat} {o : TxOutcome} {k : Nat} (h : waitEnds n false o k) : waitEnds n true o k := by
  cases o with
  | nack => exact absurd rfl (waitEnds_not_nack h)
  | success => exact h
  | timeout => exact h

/-! ### The body -/

/-- Where the body of `XMIT` ended, the first byte being `frame`, with `n` bytes to send: the outcome, `none` at a
missing element, after the successful `WR` steps `sent`. `addr` and `iter` are what the last wait left in `ADDR` and
`ITER`. -/
inductive XmitEnds (nPoll : Nat) (m : Memory) (frame : Byte) (n : Nat) (addr : Bool) (iter : Nat) :
    List (Byte × Nat) → List LuEvent → Option TxOutcome → Prop where
  /-- at the wait of `BEGIN` -/
  | atBegin {o : TxOutcome} (failed : o ≠ .success) (ends : waitEnds nPoll false o iter) :
      XmitEnds nPoll m frame n addr iter [] (beginEvents o iter) (some o)
  /-- at the wait of `SEL` -/
  | atSel {o : TxOutcome} {j v1 v3 : Nat} (begun : j < nPoll) (failed : o ≠ .success)
      (ends : waitEnds nPoll true o iter) :
      XmitEnds nPoll m frame n addr iter [] (beginEvents .success j ++ selEvents frame o iter v1 v3) (some o)
  /-- in the loop, or after it with the one stop -/
  | atBytes {r : Option TxOutcome} {j k v1 v3 : Nat} {sent : List (Byte × Nat)} {gained : List LuEvent}
      (begun : j < nPoll) (selected : k < nPoll) (clear : addr = false) (elements : SentFrom nPoll m 0 sent)
      (loop : LoopEnd nPoll m 0 n k iter sent gained r) :
      XmitEnds nPoll m frame n addr iter sent
        (beginEvents .success j ++ selEvents frame .success k v1 v3 ++ gained ++
          if r = some .success then [.setStop] else []) r

/-- `b'` is `b` after the body of `XMIT` with result `r`, `n` successful `WR` steps and the accesses `gained`. -/
def XmitChanged (b b' : Bus) (n : Nat) (gained : List LuEvent) (r : Option TxOutcome) : Prop :=
  b' = { b with
    idx := BitVec.ofNat 16 n
    nWrOk := b.nWrOk + n
    nEnd := b.nEnd + (if r = some .success then 1 else 0)
    line :=
      { iter := b'.line.iter
        hist := b.line.hist ++ gained
        lu := { b.line.lu with
          start := true
          stop := if r = some .success then true else b.line.lu.stop
          dr := b'.line.lu.dr
          sb := b'.line.lu.sb
          addr := b'.line.lu.addr
          txe := b'.line.lu.txe
          af := b'.line.lu.af
          sr1 := b'.line.lu.sr1
          sr3 := b'.line.lu.sr3 }
        env := { b.line.env with polls := b'.line.env.polls, statuses := b'.line.env.statuses } } }

theorem xmitBody_spec (nPoll : Nat) (m : Memory) (a : BitVec 7) (len : Half) (b : Bus) :
    ∃ (r : Option TxOutcome) (b' : Bus) (sent : List (Byte × Nat)) (gained : List LuEvent),
      xmitBody nPoll m a len b = (r, b') ∧ XmitChanged b b' sent.length gained r ∧
      XmitEnds nPoll m (frameByte a false) len.toNat b'.line.lu.addr b'.line.iter sent gained r := by
  obtain ⟨o, j, sb, polls, begun, hb⟩ := beginBody_spec nPoll (clearIdx b).line
  simp only [xmitBody, hb]
  generalize hl : (Line.mk j _ _ _) = l
  obtain rfl | ho := eq_or_ne o .success
  case inr =>
    rw [if_neg ho]
    subst hl
    exact ⟨_, _, _, _, rfl, by simp [XmitChanged, ho, clearIdx, Bus.withLine], .atBegin ho begun⟩
  obtain ⟨o, k, x, af, v1, v3, polls', statuses, selected, hs⟩ := selBody_spec nPoll a false l
  rw [if_pos rfl, hs]
  generalize hl' : (Line.mk k _ _ _) = l'
  obtain rfl | ho := eq_or_ne o .success
  case inr =>
    rw [if_neg ho]
    subst hl' hl
    exact ⟨_, _, _, _, rfl, by simp [XmitChanged, ho, clearIdx, Bus.withLine],
      .atSel (v1 := v1) (v3 := v3) begun ho selected⟩
  obtain ⟨r, k', sent, gained, d, txe, af', polls'', hx, elements, loop⟩ :=
    xmitBytes_spec nPoll m len.toNat ((clearIdx b).withLine l') (by simpa [clearIdx] using len.isLt)
  rw [if_pos rfl, hx]
  subst hl' hl
  by_cases hr : r = some .success
  · exact ⟨_, _, _, _, if_pos hr, by simp [XmitChanged, clearIdx, endBody, Bus.withLine, luSetStop, Line.record],
      .atBytes (v1 := v1) (v3 := v3) begun selected rfl elements (hr ▸ loop)⟩
  · exact ⟨_, _, _, _, if_neg hr, by simp [XmitChanged, hr, clearIdx, Bus.withLine],
      .atBytes (v1 := v1) (v3 := v3) begun selected rfl elements loop⟩

/-! ### Completion, result and frame -/

section
variable {nPoll n k : Nat} {m : Memory} {sent : List (Byte × Nat)} {gained : List LuEvent} {o : TxOutcome}

theorem LoopEnd.length_le {first i : Nat} {r : Option TxOutcome} (h : LoopEnd nPoll m first n i k sent gained r) :
    sent.length ≤ n := by
  match r, h with
  | some .success, ⟨hn, _⟩ => exact hn.le
  | some .timeout, ⟨hn, _⟩ => exact hn.le
  | some .nack, ⟨hn, _⟩ => exact hn.le
  | none, ⟨hn, _⟩ => exact hn.le

theorem LoopEnd.of_failed {first i : Nat} (ho : o ≠ .success)
    (h : LoopEnd nPoll m first n i k sent gained (some o)) :
    sent.length < n ∧ waitEnds nPoll true o k ∧
      ∃ v, Memory.read m (first + sent.length) = some v ∧ gained = sentEvents sent ++ wrEvents v o k := by
  cases o with
  | success => exact absurd rfl ho
  | timeout => exact h
  | nack => exact h

variable {frame : Byte} {addr : Bool}

theorem XmitEnds.sentFrom {r : Option TxOutcome} (h : XmitEnds nPoll m frame n addr k sent gained r) :
    SentFrom nPoll m 0 sent := by
  cases h with
  | atBegin => exact .nil ..
  | atSel => exact .nil ..
  | atBytes _ _ _ elements => exact elements

theorem XmitEnds.length_le {r : Option TxOutcome} (h : XmitEnds nPoll m frame n addr k sent gained r) :
    sent.length ≤ n := by
  cases h with
  | atBegin => exact n.zero_le
  | atSel => exact n.zero_le
  | atBytes _ _ _ _ loop => exact loop.length_le

/-- The outcome of `XMIT` is that of its last wait. -/
theorem XmitEnds.lastWait (h : XmitEnds nPoll m frame n addr k sent gained (some o)) : waitEnds nPoll true o k := by
  cases h with
  | atBegin _ ends => exact waitEnds_checkAf ends
  | atSel _ _ ends => exact ends
  | atBytes _ selected _ _ loop =>
    obtain rfl | ho := eq_or_ne o .success
    · obtain ⟨-, within, -⟩ := loop
      exact within selected
    · obtain ⟨-, ends, -⟩ := loop.of_failed ho
      exact ends

/-- The accesses of an `XMIT` with an outcome: its four ends, as 41_bus_composite.md R100 lists them. -/
theorem XmitEnds.accesses (h : XmitEnds nPoll m frame n addr k sent gained (some o)) :
    ∃ j k' v1 v3 : Nat,
      (o ≠ .success ∧ sent = [] ∧ gained = beginEvents o k) ∨
      (j < nPoll ∧
        ((o ≠ .success ∧ sent = [] ∧ gained = beginEvents .success j ++ selEvents frame o k v1 v3) ∨
         (k' < nPoll ∧ addr = false ∧
           ((o ≠ .success ∧ sent.length < n ∧
              ∃ v, Memory.read m sent.length = some v ∧
                gained = beginEvents .success j ++ selEvents frame .success k' v1 v3 ++ sentEvents sent ++
                  wrEvents v o k) ∨
            (o = .success ∧ sent.length = n ∧
              gained = beginEvents .success j ++ selEvents frame .success k' v1 v3 ++ sentEvents sent ++
                [.setStop]))))) := by
  cases h with
  | atBegin failed => exact ⟨0, 0, 0, 0, .inl ⟨failed, rfl, rfl⟩⟩
  | @atSel _ j v1 v3 begun failed => exact ⟨j, 0, v1, v3, .inr ⟨begun, .inl ⟨failed, rfl, rfl⟩⟩⟩
  | @atBytes _ j k' v1 v3 _ _ begun selected clear _ loop =>
    refine ⟨j, k', v1, v3, .inr ⟨begun, .inr ⟨selected, clear, ?_⟩⟩⟩
    obtain rfl | ho := eq_or_ne o .success
    · obtain ⟨hn, -, rfl⟩ := loop
      exact .inr ⟨rfl, hn, rfl⟩
    · obtain ⟨hn, -, v, hv, rfl⟩ := loop.of_failed ho
      exact .inl ⟨ho, hn, v, by simpa using hv, by simp [ho]⟩

end

/-- `XMIT` whose body has an outcome completes with it. -/
theorem exec_xmit {s : State} {address7 : Nat} {len : Half} {o : TxOutcome} {b : Bus} (ready : s.BteReady)
    (ha : address7 ≤ 127)
    (hx : xmitBody s.params.nPoll s.txbuf (BitVec.ofNat 7 address7) len
      (latchXmit address7 len { s.bus with busy := true, phase := .issue }) = (some o, b)) :
    exec (.xmit address7 len) s = .next (s.withBus (complete o b)) := by
  rw [exec, execXmit, acceptBte_ready ready, if_neg (Nat.not_lt.2 ha)]
  exact (congrArg (xmitEnd s _) hx).trans (xmitEnd_some s _ rfl)

/-- An `XMIT` of a buffer that has its elements completes; the BTE `b` it leaves at completion, and how it ended. -/
theorem exec_xmit_covered {s : State} {address7 : Nat} {len : Half} (ready : s.BteReady) (ha : address7 ≤ 127)
    (covered : Memory.covers s.txbuf len.toNat = true) :
    ∃ (o : TxOutcome) (b : Bus) (sent : List (Byte × Nat)) (gained : List LuEvent),
      exec (.xmit address7 len) s = .next (s.withBus (complete o b)) ∧
      XmitChanged (latchXmit address7 len { s.bus with busy := true, phase := .issue }) b sent.length gained
        (some o) ∧
      XmitEnds s.params.nPoll s.txbuf (BitVec.ofNat 8 (2 * address7)) len.toNat b.line.lu.addr b.line.iter sent gained
        (some o) := by
  obtain ⟨r, b, sent, gained, hx, changed, ends⟩ :=
    xmitBody_spec s.params.nPoll s.txbuf (BitVec.ofNat 7 address7) len
      (latchXmit address7 len { s.bus with busy := true, phase := .issue })
  obtain ⟨o, rfl⟩ : ∃ o, r = some o :=
    Option.ne_none_iff_exists'.1 fun hr => xmitBody_covered _ covered ((congrArg Prod.fst hx).trans hr)
  rw [frameByte_eq] at ends
  exact ⟨o, b, sent, gained, exec_xmit ready ha hx, changed, ends⟩

/-- Settles O24, from where the body ended and what it changed. -/
theorem xmitResult : Obligations.XmitResult := by
  intro s address7 len ready ha covered
  obtain ⟨o, b, sent, gained, hexec, changed, ends⟩ := exec_xmit_covered ready ha covered
  obtain ⟨j, k, v1, v3, accesses⟩ := ends.accesses
  have idx : b.idx = BitVec.ofNat 16 sent.length := congrArg Bus.idx changed
  have counted : b.idx.toNat = sent.length := by
    rw [idx, BitVec.toNat_ofNat]
    exact Nat.mod_eq_of_lt (ends.length_le.trans_lt len.isLt)
  refine ⟨o, gained, sent, j, k, v1, v3, _, hexec, ?_, ends.lastWait, counted, ends.sentFrom, accesses⟩
  refine (congrArg (fun b => s.withBus (complete o b)) changed).trans ?_
  simp [State.withBus, complete, release, latchXmit, ready.1, counted, ← idx]

end Sys2Proof.Machine
end

section
/-! The stimulus word (30_encoding.md R60 to R63, R66, R68): encoder and decoder are inverse to each other, and the
rows of the opcode table are disjoint and are selected by exactly the words that decode. -/

namespace Sys2Proof

/-! ### Decoder and encoder -/

/-- A byte holds a 7-bit address (R61). -/
theorem addressByte_toNat {a : Nat} (ha : a ≤ 127) : (BitVec.ofNat 8 a).toNat = a := by
  rw [BitVec.toNat_ofNat]
  exact Nat.mod_eq_of_lt (by omega)

@[simp] theorem addressFits_packWord (o : BitVec 4) (f : Bool) (b : Byte) (hw : Half) :
    addressFits (packWord o f b hw) = decide (b.toNat < 128) := by
  rw [addressFits, bOf_packWord]

/-- Settles O1, row by row: the decoder reads the fields the encoder packed. -/
theorem decodeEncodeAgree : Obligations.DecodeEncodeAgree := by
  intro i hwf
  cases i
  case sel address7 _ | xmit address7 _ =>
    have ha : address7 ≤ 127 := of_decide_eq_true hwf
    simp [encode, decode, liveOnly, addressByte_toNat ha, Nat.lt_succ_of_le ha, -BitVec.toNat_ofNat]
  all_goals simp [encode, decode, liveOnly]

/-- A word is the packing of its fields. -/
theorem packWord_eq {w : Word} {o : BitVec 4} {f : Bool} {b : Byte} {hw : Half} (ho : (opcOf w).toNat = o.toNat)
    (hz : zOf w = 0) (hf : fOf w = f) (hb : bOf w = b) (hhw : hwOf w = hw) : packWord o f b hw = w := by
  rw [← BitVec.eq_of_toNat_eq ho, ← hf, ← hb, ← hhw, packWord_fields w hz]

/-- Settles O2, row by row: what the decoder checked and read is all there is in the word. -/
theorem decodedWordIsItsEncoding : Obligations.DecodedWordIsItsEncoding := by
  intro w i h
  unfold decode at h
  split at h
  · cases h
  rename_i hz
  split at h
  case h_10 => cases h
  all_goals
    rename_i hopc
    obtain ⟨hlive, rfl⟩ := liveOnly_ok h
    simp only [addressFits, Bool.and_eq_true, beq_iff_eq, decide_eq_true_eq] at hlive
    refine ⟨?_, packWord_eq hopc (not_not.1 hz) ?_ ?_ ?_⟩ <;> simp [hlive, Instr.wf, Nat.le_of_lt_succ]

/-! ### The rows of the opcode table -/

theorem row_mem_opcodeTable (i : Instr) : i.row ∈ opcodeTable := by
  cases i <;> simp [opcodeTable, Instr.row]

/-- The word of a well-formed operation selects the operation's row. -/
theorem row_selects_encode {i : Instr} : i.wf = true → i.row.selects (encode i) = true :=
  match i with
  | .cfg => Laws.RowSelected.cfg
  | .beginTx => Laws.RowSelected.beginTx
  | .sel a d => Laws.RowSelected.sel a d
  | .wr v => Laws.RowSelected.wr v
  | .rd m => Laws.RowSelected.rd m
  | .endTx => Laws.RowSelected.endTx
  | .xmit a n => Laws.RowSelected.xmit a n
  | .sample => Laws.RowSelected.sample
  | .edge t l => Laws.RowSelected.edge t l

theorem selects_iff {r : OpcodeRow} {w : Word} : r.selects w = true ↔ w &&& r.mask = r.pattern := beq_iff_eq

/-- Two rows that one word selects agree on the bits both fix. -/
theorem patterns_agree_of_selects {r r' : OpcodeRow} {w : Word} (h : r.selects w = true) (h' : r'.selects w = true) :
    r.pattern &&& r'.mask = r'.pattern &&& r.mask := by
  rw [← selects_iff.1 h, ← selects_iff.1 h', BitVec.and_assoc, BitVec.and_assoc, BitVec.and_comm r.mask]

/-- No two rows agree on the bits both fix. -/
theorem opcodeTable_distinct : ∀ r ∈ opcodeTable, ∀ r' ∈ opcodeTable,
    r.pattern &&& r'.mask = r'.pattern &&& r.mask → r = r' := by
  decide

theorem row_eq_of_selects {r r' : OpcodeRow} {w : Word} (hr : r ∈ opcodeTable) (hr' : r' ∈ opcodeTable)
    (h : r.selects w = true) (h' : r'.selects w = true) : r = r' :=
  opcodeTable_distinct r hr r' hr' (patterns_agree_of_selects h h')

/-- Every row fixes the operation code, and `Z` to 000 (R61, R62). -/
theorem opcodeTable_fixes_code : ∀ r ∈ opcodeTable,
    opcOf r.mask = BitVec.allOnes 4 ∧ zOf r.mask = BitVec.allOnes 3 ∧ zOf r.pattern = 0 := by
  decide

/-- What a mask of ones selects is the pattern. -/
theorem eq_of_and_ones {n : Nat} {x m p : BitVec n} (hm : m = BitVec.allOnes n) (h : x &&& m = p) : x = p := by
  rw [← h, hm, BitVec.and_allOnes]

/-- A word that selects a row is the word of a well-formed operation, whose operands are the fields the row leaves
free (R61, R62). -/
theorem exists_encode_of_selects {r : OpcodeRow} {w : Word} (hr : r ∈ opcodeTable) (h : r.selects w = true) :
    ∃ i : Instr, i.wf = true ∧ encode i = w := by
  obtain ⟨ho, hz, hf, hb, hhw⟩ := (selects_fields _ _).1 h
  obtain ⟨mo, mz, pz⟩ := opcodeTable_fixes_code r hr
  replace ho := congrArg BitVec.toNat (eq_of_and_ones mo ho)
  replace hz := (eq_of_and_ones mz hz).trans pz
  simp only [opcodeTable, List.mem_cons, List.not_mem_nil, or_false] at hr
  obtain rfl | rfl | rfl | rfl | rfl | rfl | rfl | rfl | rfl := hr
  · exact ⟨.cfg, rfl, (eq_of_and_ones rfl (selects_iff.1 h)).symm⟩
  · exact ⟨.beginTx, rfl, (eq_of_and_ones rfl (selects_iff.1 h)).symm⟩
  · have hb : (bOf w).toNat ≤ 127 := Nat.le_of_lt_succ ((byte_and_80 _).1 hb)
    exact ⟨.sel (bOf w).toNat (fOf w), decide_eq_true hb,
      packWord_eq ho hz rfl (by simp) (eq_of_and_ones rfl hhw)⟩
  · exact ⟨.wr (bOf w), rfl, packWord_eq ho hz ((Bool.and_true _).symm.trans hf) rfl (eq_of_and_ones rfl hhw)⟩
  · exact ⟨.rd (fOf w), rfl, packWord_eq ho hz rfl (eq_of_and_ones rfl hb) (eq_of_and_ones rfl hhw)⟩
  · exact ⟨.endTx, rfl, (eq_of_and_ones rfl (selects_iff.1 h)).symm⟩
  · have hb : (bOf w).toNat ≤ 127 := Nat.le_of_lt_succ ((byte_and_80 _).1 hb)
    exact ⟨.xmit (bOf w).toNat (hwOf w), decide_eq_true hb,
      packWord_eq ho hz ((Bool.and_true _).symm.trans hf) (by simp) rfl⟩
  · exact ⟨.sample, rfl, (eq_of_and_ones rfl (selects_iff.1 h)).symm⟩
  · exact ⟨.edge (hwOf w) (fOf w), rfl, packWord_eq ho hz rfl (eq_of_and_ones rfl hb) rfl⟩

/-- Settles O3: a word that decodes is an encoding and selects its row; a word that selects a row is an encoding and
decodes. -/
theorem decodeIsTotalAndUnambiguous : Obligations.DecodeIsTotalAndUnambiguous := by
  intro w
  cases hd : decode w with
  | ok i =>
    obtain ⟨hwf, rfl⟩ := decodedWordIsItsEncoding w i hd
    refine .inl ⟨i, rfl, fun r hr => ⟨fun h => ?_, ?_⟩⟩
    · exact row_eq_of_selects hr (row_mem_opcodeTable i) h (row_selects_encode hwf)
    · rintro rfl
      exact row_selects_encode hwf
  | error e =>
    refine .inr ⟨e, rfl, fun r hr => Bool.eq_false_of_not_eq_true fun h => ?_⟩
    obtain ⟨i, hwf, rfl⟩ := exists_encode_of_selects hr h
    rw [decodeEncodeAgree i hwf] at hd
    cases hd

/-- Settles O4: each word is the encoding of its operation. -/
theorem specWordsDecode : Obligations.SpecWordsDecode :=
  ⟨decodeEncodeAgree .cfg rfl, decodeEncodeAgree .beginTx rfl, decodeEncodeAgree (.sel 0x27 true) rfl,
    decodeEncodeAgree (.wr 0xA5) rfl, decodeEncodeAgree (.rd true) rfl, decodeEncodeAgree .endTx rfl,
    decodeEncodeAgree (.xmit 0x27 4) rfl, decodeEncodeAgree .sample rfl, decodeEncodeAgree (.edge 3100 true) rfl⟩

end Sys2Proof
end

section
/-! What a step makes of a word it takes (30_encoding.md R66, R67), and the first byte `SEL` writes (R64). -/

namespace Sys2Proof.Machine

/-! ### What a step makes of a word -/

section
variable {w : Word} {i : Instr} (hd : decode w = .ok i) (s : State)
include hd

theorem runTraced_ok :
    runTraced w s = if i.isHostCommand then foregroundMove (.traced w) s (exec i s) else exec i s := by
  simp only [runTraced, hd]

theorem runPresented_ok : runPresented w s =
    if i.isHostCommand then foregroundMove (.presented w) s (exec i s) else .refused .eventNotCommand := by
  simp only [runPresented, hd]

theorem runIssued_ok : runIssued w s = foregroundMove (.issued w) s (issue i s) := by
  simp only [runIssued, hd]

end

/-- The step of a host command, however it is given: a move of the foreground, which runs it or lets it wait. -/
theorem step_of_command {s : State} {x : Stimulus} {rest : List Stimulus} {i : Instr} {r : Result}
    (hi : i.isHostCommand = true) (ht : s.trace = x :: rest)
    (hstep : step s = foregroundMove x { s with trace := rest } r) :
    (s.foregroundFree = true ∨ i.isHostCommand = false → step s = r) ∧
    (s.foregroundFree = false → i.isHostCommand = true →
      (∀ q, r = .refused q → step s = .refused q) ∧ ((∀ q, r ≠ .refused q) → step s = advance s)) := by
  rw [hstep]
  refine ⟨fun free => ?_, fun busy _ => ⟨fun q due => ?_, fun none_due => ?_⟩⟩
  · exact foregroundMove_free (s := { s with trace := rest }) (free.resolve_right (by simp [hi])) x r
  · rw [due, foregroundMove_refused]
  · rw [foregroundMove_waits (s := { s with trace := rest }) busy x none_due, ← ht]

/-- Settles O5: a host command is a move of the foreground, and an `EDGE` word of the trace is none. -/
theorem stepRunsDecodedInstruction : Obligations.StepRunsDecodedInstruction := by
  intro s w rest i run hs hd hx
  obtain ⟨ht, rfl⟩ | ⟨ht, hi, rfl⟩ | ⟨ht, hi, rfl⟩ := hx
  · have hstep := (step_of_trace hs ht).trans (runTraced_ok hd _)
    by_cases hi : i.isHostCommand = true
    · exact step_of_command hi ht (hstep.trans (if_pos hi))
    · exact ⟨fun _ => hstep.trans (if_neg hi), fun _ h => absurd h hi⟩
  · exact step_of_command hi ht ((step_of_trace hs ht).trans ((runPresented_ok hd _).trans (if_pos hi)))
  · exact step_of_command hi ht ((step_of_trace hs ht).trans (runIssued_ok hd _))

/-- Settles O6: no edge is pending there and the foreground is free. -/
theorem placedWordRunsNext : Obligations.PlacedWordRunsNext := by
  intro s w i hd
  rw [State.withFetchWord, BitVec.ofNat_toNat, BitVec.setWidth_eq]
  exact (stepRunsDecodedInstruction (placeWord s w) w s.trace i (exec i) rfl hd (.inl ⟨rfl, rfl⟩)).1 (.inl rfl)

/-- Settles O7, for each way a word is given. -/
theorem illegalWordRefused : Obligations.IllegalWordRefused := by
  intro s w rest e hs hd ht
  obtain ht | ht | ht := ht <;> rw [step_of_trace hs ht]
  · simp only [apply, runTraced, hd]
  · simp only [apply, runPresented, hd]
  · simp only [apply, runIssued, hd]

/-- Settles O8: presented, the word is no command; issued, the refusal is due whatever else is in progress. -/
theorem edgeWordIsNoCommand : Obligations.EdgeWordIsNoCommand := by
  intro s w rest now level hs hd ht
  obtain ht | ht := ht
  · exact (step_of_trace hs ht).trans (runPresented_ok hd _)
  · exact (step_of_trace hs ht).trans ((runIssued_ok hd _).trans (foregroundMove_refused _ _ _))

/-! ### The framed byte (R64) -/

theorem frameByte_toNat {a : Nat} (ha : a ≤ 127) (d : Bool) :
    (frameByte (BitVec.ofNat 7 a) d).toNat = 2 * a + d.toNat := by
  have := d.toNat_lt
  rw [frameByte_eq, BitVec.toNat_ofNat]
  omega

theorem frameByte_address (a7 : BitVec 7) (d : Bool) : (frameByte a7 d).extractLsb' 1 7 = a7 :=
  BitVec.extractLsb'_append_eq_left

theorem frameByte_direction (a7 : BitVec 7) (d : Bool) : (frameByte a7 d).getLsbD 0 = d := by
  rw [frameByte, BitVec.getLsbD_append]
  simp

/-- The first access of a `SEL` that completes is the write of the framed byte (R83). -/
theorem exec_sel_hist {s t : State} {address7 : Nat} {direction : Bool}
    (h : exec (.sel address7 direction) s = .next t) :
    ∃ rest, t.bus.line.hist =
      s.bus.line.hist ++ .writeDr (frameByte (BitVec.ofNat 7 address7) direction) :: rest := by
  simp only [exec, execSel] at h
  obtain ⟨-, h⟩ := acceptBte_next h
  split at h <;> cases h
  obtain ⟨o, k, x, y, v1, v3, polls, statuses, -, hsel⟩ :=
    selBody_spec s.params.nPoll (BitVec.ofNat 7 address7) direction s.bus.line
  exact ⟨_, (congrArg (fun r => r.2.hist) hsel).trans (by rw [selEvents, List.cons_append])⟩

/-- Settles O19, from the first access of `SEL` and the fields of the framed byte. -/
theorem selFramesAddress : Obligations.SelFramesAddress := by
  intro s t address7 direction ha h
  obtain ⟨rest, hist⟩ := exec_sel_hist h
  exact ⟨_, rest, hist, frameByte_toNat ha direction, frameByte_address _ _, frameByte_direction _ _⟩

end Sys2Proof.Machine
end

section
/-! The bounded wait under a scripted answer (40_bus_primitives.md R80, 92_eei_decisions.md D26): as the table says,
and with exactly that answer's polls. -/

namespace Sys2Proof.Machine

/-- Settles O10, from everything a wait can do. -/
theorem pollWaitHistory : Obligations.PollWaitHistory := by
  intro n f checkAf l
  obtain ⟨o, k, x, y, polls, ends, hw⟩ := pollWait_spec n f checkAf l
  rw [hw]
  exact ⟨o, k, ends, rfl, rfl, rfl⟩

/-! ### The table of D26, iteration by iteration -/

/-- No iteration before `i` ends a wait under the answer `a`. -/
def WaitAnswer.Undecided (a : WaitAnswer) (checkAf : Bool) (i : Nat) : Prop :=
  ∀ j < i, a.flagAt j = false ∧ (checkAf = true → a.afAt j = false)

section
variable {a : WaitAnswer} {checkAf : Bool} {i n : Nat} (h : a.Undecided checkAf i)
include h

theorem WaitAnswer.Undecided.succ (hf : a.flagAt i = false) (haf : checkAf = true → a.afAt i = false) :
    a.Undecided checkAf (i + 1) := by
  intro j hj
  obtain hj | rfl := Nat.lt_succ_iff_lt_or_eq.1 hj
  · exact h j hj
  · exact ⟨hf, haf⟩

/-- A budget spent with no iteration deciding is a `Timeout`. -/
theorem WaitAnswer.Undecided.timeout : a.outcome i checkAf = .timeout ∧ a.iter i checkAf = i := by
  cases a with
  | hit k | both k =>
    have hk : ¬ k < i := fun hk => by simpa [flagAt] using (h k hk).1
    exact ⟨if_neg hk, if_neg hk⟩
  | nak k =>
    have hk : ¬ (k < i ∧ checkAf = true) := fun ⟨hk, hc⟩ => by simpa [afAt] using (h k hk).2 hc
    exact ⟨if_neg hk, if_neg hk⟩
  | dead => exact ⟨rfl, rfl⟩

/-- The wanted flag in the first iteration that decides is a `Success`. -/
theorem WaitAnswer.Undecided.success (hi : i < n) (hf : a.flagAt i = true) :
    a.outcome n checkAf = .success ∧ a.iter n checkAf = i := by
  cases a with
  | hit k | both k =>
    obtain rfl : i = k := of_decide_eq_true hf
    exact ⟨if_pos hi, if_pos hi⟩
  | nak | dead => cases hf

/-- `AF` without the wanted flag, where it is checked, is a `Nack`. -/
theorem WaitAnswer.Undecided.nack (hi : i < n) (hc : checkAf = true) (hf : a.flagAt i = false)
    (haf : a.afAt i = true) : a.outcome n checkAf = .nack ∧ a.iter n checkAf = i := by
  cases a with
  | hit | dead => cases haf
  | nak k =>
    obtain rfl : i = k := of_decide_eq_true haf
    exact ⟨if_pos ⟨hi, hc⟩, if_pos ⟨hi, hc⟩⟩
  | both k =>
    have hk : k ≤ i := of_decide_eq_true haf
    have hne : i ≠ k := of_decide_eq_false hf
    have seen : (WaitAnswer.both k).flagAt k = true := decide_eq_true rfl
    exact absurd (h k (by omega)).1 (by simp [seen])

end

/-! ### The loop -/

theorem pollAnswer_of_scripted {l : Line} {v : Bool} {polls : List Bool} (f : LuFlag) (h : l.env.polls = v :: polls) :
    pollAnswer f l = v := by
  simp [pollAnswer, h]

theorem luPoll_env_of_scripted {l : Line} {v : Bool} {polls : List Bool} (f : LuFlag) (h : l.env.polls = v :: polls) :
    (luPoll f l).env = { l.env with polls := polls } := by
  simp [luPoll, Line.record, h]

theorem pollAnswer_second_of_scripted {l : Line} {u v : Bool} {polls : List Bool} (f g : LuFlag)
    (h : l.env.polls = u :: v :: polls) : pollAnswer g (luPoll f l) = v :=
  pollAnswer_of_scripted g (congrArg EnvScript.polls (luPoll_env_of_scripted f h))

theorem luPoll_luPoll_env_of_scripted {l : Line} {u v : Bool} {polls : List Bool} (f g : LuFlag)
    (h : l.env.polls = u :: v :: polls) : (luPoll g (luPoll f l)).env = { l.env with polls := polls } := by
  rw [luPoll_env_of_scripted g (congrArg EnvScript.polls (luPoll_env_of_scripted f h)), luPoll_env_of_scripted f h]

/-- The wait result `r` is what D26's table says of `a`, and `env` is what is left of the environment's answers. -/
def WaitAnswer.Gives (a : WaitAnswer) (n : Nat) (checkAf : Bool) (env : EnvScript) (r : TxOutcome × Line) : Prop :=
  r.1 = a.outcome n checkAf ∧ r.2.iter = a.iter n checkAf ∧ r.2.env = env

/-- The loop of a wait whose polls from iteration `ITER` on are those of `a`. -/
theorem pollLoop_gives (a : WaitAnswer) (f : LuFlag) (checkAf : Bool) (rest : List Bool) : ∀ (n : Nat) (l : Line),
    a.Undecided checkAf l.iter → l.env.polls = a.pollsFrom checkAf n l.iter ++ rest →
    a.Gives (l.iter + n) checkAf { l.env with polls := rest } (pollLoop f checkAf n l) := by
  intro n
  induction n with
  | zero =>
    intro l undecided hp
    obtain ⟨ho, hi⟩ := undecided.timeout
    obtain rfl : l.env.polls = rest := hp
    exact ⟨ho.symm, hi.symm, rfl⟩
  | succ n ih =>
    intro l undecided hp
    have hlt : l.iter < l.iter + (n + 1) := by omega
    have goesOn {l' : Line} (hiter : l'.iter = l.iter + 1)
        (henv : l'.env = { l.env with polls := a.pollsFrom checkAf n (l.iter + 1) ++ rest })
        (undecided : a.Undecided checkAf (l.iter + 1)) :
        a.Gives (l.iter + (n + 1)) checkAf { l.env with polls := rest } (pollLoop f checkAf n l') := by
      have := ih l' (hiter ▸ undecided) (by rw [henv, hiter])
      rwa [hiter, henv, Nat.add_right_comm] at this
    cases hf : a.flagAt l.iter with
    | true =>
      simp only [WaitAnswer.pollsFrom, hf, if_true, List.cons_append] at hp
      simp only [pollLoop, pollAnswer_of_scripted f hp, if_true]
      obtain ⟨ho, hi⟩ := undecided.success hlt hf
      exact ⟨ho.symm, hi.symm, luPoll_env_of_scripted f hp⟩
    | false =>
      cases checkAf with
      | false =>
        simp only [WaitAnswer.pollsFrom, hf, Bool.false_eq_true, if_false, List.cons_append] at hp
        simp only [pollLoop, pollAnswer_of_scripted f hp, Bool.false_eq_true, if_false]
        exact goesOn rfl (luPoll_env_of_scripted f hp) (undecided.succ hf nofun)
      | true =>
        cases haf : a.afAt l.iter with
        | true =>
          simp only [WaitAnswer.pollsFrom, hf, haf, Bool.false_eq_true, if_true, if_false, List.cons_append] at hp
          simp only [pollLoop, pollAnswer_of_scripted f hp, pollAnswer_second_of_scripted f .af hp,
            Bool.false_eq_true, if_true, if_false]
          obtain ⟨ho, hi⟩ := undecided.nack hlt rfl hf haf
          exact ⟨ho.symm, hi.symm, luPoll_luPoll_env_of_scripted f .af hp⟩
        | false =>
          simp only [WaitAnswer.pollsFrom, hf, haf, Bool.false_eq_true, if_true, if_false, List.cons_append] at hp
          simp only [pollLoop, pollAnswer_of_scripted f hp, pollAnswer_second_of_scripted f .af hp,
            Bool.false_eq_true, if_true, if_false]
          exact goesOn rfl (luPoll_luPoll_env_of_scripted f .af hp) (undecided.succ hf fun _ => haf)

/-- A wait whose polls are scripted by `a` ends as D26's table says, and takes exactly these polls. -/
theorem pollWait_gives {a : WaitAnswer} {n : Nat} {checkAf : Bool} {l : Line} {rest : List Bool} (f : LuFlag)
    (hp : l.env.polls = a.polls n checkAf ++ rest) :
    a.Gives n checkAf { l.env with polls := rest } (pollWait n f checkAf l) := by
  have := pollLoop_gives a f checkAf rest n (l.withIter 0) (fun j hj => absurd hj (Nat.not_lt_zero j)) hp
  rwa [show (l.withIter 0).iter + n = n from Nat.zero_add n] at this

/-- Settles O11: the loop, from `ITER` = 0, where no iteration has decided yet. -/
theorem pollWaitFollowsScript : Obligations.PollWaitFollowsScript :=
  fun _ f _ _ _ => pollWait_gives f rfl

end Sys2Proof.Machine
end

section
/-! The six primitives of the bus (40_bus_primitives.md R81 to R87, R90): when they are refused, and completion, result
and frame of each. -/

namespace Sys2Proof.Machine

/-! ### Refusals -/

theorem acceptBte_busy {s : State} (busy : s.bus.busy = true) (run : Bus → Result) :
    acceptBte s run = .refused .busyReissue :=
  if_pos busy

theorem acceptBte_irq {s : State} (idle : s.bus.busy = false) (irq : s.ctx = .irq) (run : Bus → Result) :
    acceptBte s run = .refused .busOpInInterrupt := by
  rw [acceptBte, if_neg (by simp [idle]), if_pos irq]

/-- A BTE command passes acceptance first, run whole or issued for step-by-step execution (R87). -/
theorem bte_accepts {i : Instr} (hi : i.isBte = true) (s : State) :
    (∃ run, exec i s = acceptBte s run) ∧ ∃ run, issue i s = acceptBte s run := by
  cases i
  case sample | edge => cases hi
  all_goals
    simp only [exec, issue]
    exact ⟨⟨_, rfl⟩, _, rfl⟩

/-- Settles O12, from acceptance. -/
theorem bteCommandRefused : Obligations.BteCommandRefused := by
  intro i s hi
  obtain ⟨⟨run, hexec⟩, run', hissue⟩ := bte_accepts hi s
  rw [hexec, hissue]
  exact ⟨fun busy => ⟨acceptBte_busy busy _, acceptBte_busy busy _⟩,
    fun idle irq => ⟨acceptBte_irq idle irq _, acceptBte_irq idle irq _⟩⟩

/-- Settles O13: both refusals come right after acceptance. -/
theorem addressAboveRangeRefused : Obligations.AddressAboveRangeRefused := by
  intro s address7 direction length ready above
  simp only [exec, execSel, execXmit, acceptBte_ready ready, if_pos above, and_self]

/-- Settles O16: the refusal comes right after acceptance. -/
theorem cfgBusClockZeroRefused : Obligations.CfgBusClockZeroRefused := by
  intro s ready zero
  simp only [exec, execCfg, acceptBte_ready ready, if_pos zero]

/-! ### What an accepted primitive answers -/

/-- The BTE right after acceptance (R87). -/
def State.acceptedBus (s : State) : Bus := { s.bus with busy := true, phase := .issue }

section
variable {s : State} (ready : s.BteReady)
include ready

theorem exec_cfg (clocked : s.bus.clkBus ≠ 0) :
    exec .cfg s = .next (s.withBus (release (cfgBody s.params.divRaw s.acceptedBus))) := by
  rw [exec, execCfg, acceptBte_ready ready]
  exact if_neg clocked

theorem exec_beginTx {o : TxOutcome} {l : Line} (h : beginBody s.params.nPoll s.bus.line = (o, l)) :
    exec .beginTx s = .next (s.withBus (complete o (s.acceptedBus.withLine l))) := by
  rw [exec, execBegin, acceptBte_ready ready]
  simp only [h]
  rfl

theorem exec_sel {address7 : Nat} (ha : address7 ≤ 127) {direction : Bool} {o : TxOutcome} {l : Line}
    (h : selBody s.params.nPoll (BitVec.ofNat 7 address7) direction s.bus.line = (o, l)) :
    exec (.sel address7 direction) s =
      .next (s.withBus (complete o ((latchSel address7 direction s.acceptedBus).withLine l))) := by
  rw [exec, execSel, acceptBte_ready ready, if_neg (Nat.not_lt.2 ha)]
  simp only [latchSel, h]
  rfl

theorem exec_wr {v : Byte} {o : TxOutcome} {b : Bus}
    (h : wrBody s.params.nPoll v (latchWr v s.acceptedBus) = (o, b)) :
    exec (.wr v) s = .next (s.withBus (complete o b)) := by
  rw [exec, execWr, acceptBte_ready ready]
  exact congrArg (fun r : TxOutcome × Bus => Host.Outcome.next (s.withBus (complete r.1 r.2))) h

theorem exec_rd {more : Bool} {o : TxOutcome} {b : Bus}
    (h : rdBody s.params.nPoll more (latchRd more s.acceptedBus) = (o, b)) :
    exec (.rd more) s = .next (s.withBus (complete o b)) := by
  rw [exec, execRd, acceptBte_ready ready]
  exact congrArg (fun r : TxOutcome × Bus => Host.Outcome.next (s.withBus (complete r.1 r.2))) h

theorem exec_endTx : exec .endTx s = .next (s.withBus (complete .success (endBody s.acceptedBus))) := by
  rw [exec, execEnd, acceptBte_ready ready]
  rfl

end

/-- Settles O14: both parameters as numbers, and the accesses of the body in its order. -/
theorem cfgResult : Obligations.CfgResult := by
  intro s ready clocked
  refine ⟨_, exec_cfg ready clocked, rfl, rfl, ?_⟩
  simp [cfgBody, countCfg, computeCfg, luWriteTrise, luWriteCcr, Line.record, State.withBus, Bus.withLine, release,
    State.acceptedBus, ready.1]

theorem exec_cfg_next {s t : State} (h : exec .cfg s = .next t) :
    t = s.withBus (release (cfgBody s.params.divRaw s.acceptedBus)) := by
  simp only [exec, execCfg] at h
  obtain ⟨-, h⟩ := acceptBte_next h
  split at h <;> cases h
  rfl

/-- Settles O15: a `CFG` that answers has computed both parameters, and neither wraps. -/
theorem cfgParametersAsNumbers : Obligations.CfgParametersAsNumbers := by
  intro s t h
  have hccr : t.bus.ccr = ccrValue s.params.divRaw s.bus.clkCore s.bus.clkBus := by rw [exec_cfg_next h]; rfl
  have htrise : t.bus.trise = triseValue s.bus.clkCore := by rw [exec_cfg_next h]; rfl
  rw [hccr, htrise]
  refine ⟨four_le_ccrValue _ _ _, Nat.le_of_lt_succ (BitVec.isLt _), triseValue_toNat _, fun standard => ?_⟩
  rw [ccrValue_toNat, standard, divRaw]

/-- Settles O17, from everything the body can do. -/
theorem beginResult : Obligations.BeginResult := by
  intro s ready
  obtain ⟨o, k, sb, polls, ends, hb⟩ := beginBody_spec s.params.nPoll s.bus.line
  refine ⟨o, _, exec_beginTx ready hb, waitEnds_not_nack ends, ends, ?_⟩
  simp [State.withBus, Bus.withLine, complete, release, State.acceptedBus, beginEvents, ready.1]

/-- Settles O18, from everything the body can do. -/
theorem selResult : Obligations.SelResult := by
  intro s address7 direction ready ha
  obtain ⟨o, k, addr, af, v1, v3, polls, statuses, ends, hb⟩ :=
    selBody_spec s.params.nPoll (BitVec.ofNat 7 address7) direction s.bus.line
  refine ⟨o, v1, v3, _, exec_sel ready ha hb, ends, ?_⟩
  simp [State.withBus, Bus.withLine, complete, release, State.acceptedBus, latchSel, selEvents, frameByte_eq, ready.1]

/-- Settles O20, from everything the body can do. -/
theorem wrResult : Obligations.WrResult := by
  intro s v ready
  obtain ⟨o, k, txe, af, polls, ends, hb⟩ := wrBody_spec s.params.nPoll v (latchWr v s.acceptedBus)
  refine ⟨o, _, exec_wr ready hb, ends, ?_⟩
  simp [State.withBus, complete, release, State.acceptedBus, latchWr, wrEvents, ready.1]

/-! ### `RD` (R85) -/

theorem drAnswer_of_scripted {l : Line} {v : Byte} {bytes : List Byte} (h : l.env.bytes = v :: bytes) :
    drAnswer l = v := by
  simp [drAnswer, h]

/-- Everything the body of `RD` can do, `v` being the byte in `RDATA`: on `Success` the scripted one, where one is. -/
theorem rdBody_spec (n : Nat) (more : Bool) (b : Bus) :
    ∃ (o : TxOutcome) (k : Nat) (rxne : Bool) (v : Byte) (draws : Nat) (polls : List Bool) (bytes : List Byte),
      waitEnds n false o k ∧
      (∀ u rest, o = .success → b.line.env.bytes = u :: rest → v = u) ∧
      rdBody n more b = (o, { b with
        rdata := v
        draws := draws
        line :=
          { iter := k
            hist := b.line.hist ++ .setAck more :: waitEvents .rxne false o k ++
              (if o = .success then (if more then [.readDr v] else [.setStop, .readDr v]) else [])
            lu := { b.line.lu with
              ack := more
              rxne := rxne
              stop := if o = .success ∧ more = false then true else b.line.lu.stop
              dr := if o = .success then v else b.line.lu.dr }
            env := { b.line.env with polls := polls, bytes := bytes } } }) := by
  obtain ⟨o, k, rxne, af, polls, ends, hw⟩ := pollWait_spec n .rxne false (luSetAck more b.line)
  simp only [rdBody, hw]
  generalize hl : (Line.mk k _ _ _) = l
  obtain rfl | ho := eq_or_ne o .success
  · refine ⟨.success, k, rxne, drAnswer (if more then l else luSetStop l), b.draws, polls, b.line.env.bytes.tail,
      ends, fun u rest _ h => drAnswer_of_scripted (bytes := rest) ?_, ?_⟩
    · subst hl
      cases more <;> exact h
    · subst hl
      cases more <;>
        simp [takeRdata, luReadDr, luSetStop, luSetAck, Line.record, luSampled, luWithFlag, Bus.withLine]
  · refine ⟨o, k, rxne, Config.freeRdata b.draws, b.draws + 1, polls, b.line.env.bytes, ends,
      fun _ _ h => absurd h ho, ?_⟩
    subst hl
    simp [ho, loseRdata, luSetAck, Line.record, luSampled, luWithFlag, Bus.withLine]

/-- Settles O21, from everything the body can do. -/
theorem rdResult : Obligations.RdResult := by
  intro s more ready
  obtain ⟨o, k, rxne, v, draws, polls, bytes, ends, -, hb⟩ :=
    rdBody_spec s.params.nPoll more (latchRd more s.acceptedBus)
  refine ⟨o, _, exec_rd ready hb, waitEnds_not_nack ends, ends, ?_⟩
  simp [State.withBus, complete, release, State.acceptedBus, latchRd, ready.1]

/-- Settles O22, from what an accepted `END` answers. -/
theorem endResult : Obligations.EndResult := by
  intro s ready
  rw [exec_endTx ready]
  simp [State.withBus, Bus.withLine, complete, release, State.acceptedBus, endBody, luSetStop, Line.record, ready.1,
    TxOutcome.code]

/-! ### Outcomes (R90) -/

/-- Every BTE operation that answers, `CFG` apart, has completed with an outcome. -/
theorem bte_completes {i : Instr} {s t : State} (hi : i.isBte = true) (hc : i ≠ .cfg) (h : exec i s = .next t) :
    ∃ o b, t = s.withBus (complete o b) := by
  cases i <;> simp only [exec] at h
  case cfg => exact absurd rfl hc
  case sample | edge => cases hi
  all_goals obtain ⟨-, h⟩ := acceptBte_next h
  case sel =>
    split at h <;> cases h
    exact ⟨_, _, rfl⟩
  case xmit =>
    split at h
    · cases h
    · obtain ⟨o, -, rfl⟩ := xmitEnd_next (fun hc => xmitBody_covered _ hc) h
      exact ⟨o, _, rfl⟩
  all_goals
    cases h
    exact ⟨_, _, rfl⟩

theorem code_ne_two {o : TxOutcome} (h : o ≠ .nack) : o.code ≠ 2 :=
  fun hc => h (code_injective (p := .nack) hc)

/-- Settles O46: completion writes one of the three codes, and the results of `BEGIN`, `RD` and `END` say which. -/
theorem outcomeCodes : Obligations.OutcomeCodes := by
  intro i s t hi h
  obtain ⟨ready, -⟩ := bte_next hi h
  refine ⟨?_, fun hc => ?_, ?_, ?_⟩
  · rintro rfl
    rw [exec_cfg_next h]
    rfl
  · obtain ⟨o, b, rfl⟩ := bte_completes hi hc h
    exact code_ne_three o
  · rintro (rfl | ⟨more, rfl⟩)
    · obtain ⟨o, t', ht, hn, -, frame⟩ := beginResult s ready
      cases h.symm.trans ht
      rw [frame]
      exact code_ne_two hn
    · obtain ⟨o, t', ht, hn, -, frame⟩ := rdResult s more ready
      cases h.symm.trans ht
      rw [frame]
      exact code_ne_two hn
  · rintro rfl
    cases h.symm.trans (endResult s ready)
    rfl

/-! ### Under a scripted environment (D26) -/

/-- What `t` has of the wait `waited` its operation made: the outcome, `ITER` and the answers the wait left. -/
def State.HasWaited (t : State) (waited : TxOutcome × Line) : Prop :=
  t.bus.outcome = waited.1.code ∧ t.bus.line.iter = waited.2.iter ∧
    t.bus.line.env.polls = waited.2.env.polls

theorem State.HasWaited.follows {t : State} {waited : TxOutcome × Line} {a : WaitAnswer} {n : Nat} {checkAf : Bool}
    {env : EnvScript} (h : t.HasWaited waited) (given : a.Gives n checkAf env waited) :
    t.bus.outcome = (a.outcome n checkAf).code ∧ t.bus.line.iter = a.iter n checkAf ∧
      t.bus.line.env.polls = env.polls := by
  obtain ⟨outcome, iter, polls⟩ := h
  obtain ⟨outcome', iter', env'⟩ := given
  exact ⟨by rw [outcome, outcome'], iter.trans iter', by rw [polls, env']⟩

section
variable {s t : State}

theorem exec_beginTx_hasWaited (h : exec .beginTx s = .next t) :
    t.HasWaited (pollWait s.params.nPoll .sb false (luSetStart s.bus.line)) := by
  rw [exec, execBegin] at h
  obtain ⟨-, h⟩ := acceptBte_next h
  cases h
  exact ⟨rfl, rfl, rfl⟩

theorem exec_sel_hasWaited {address7 : Nat} {direction : Bool} (h : exec (.sel address7 direction) s = .next t) :
    t.HasWaited (pollWait s.params.nPoll .addr true
      (luWriteDr (frameByte (BitVec.ofNat 7 address7) direction) s.bus.line)) := by
  simp only [exec, execSel] at h
  obtain ⟨-, h⟩ := acceptBte_next h
  split at h <;> cases h
  simp only [selBody, State.HasWaited, State.withBus_bus, complete_outcome, complete_line, Bus.withLine_line]
  split <;> exact ⟨rfl, rfl, rfl⟩

theorem exec_wr_hasWaited {v : Byte} (h : exec (.wr v) s = .next t) :
    t.HasWaited (pollWait s.params.nPoll .txe true (luWriteDr v s.bus.line)) := by
  simp only [exec, execWr] at h
  obtain ⟨-, h⟩ := acceptBte_next h
  cases h
  simp only [wrBody, State.HasWaited, State.withBus_bus, complete_outcome, complete_line]
  split <;> exact ⟨rfl, rfl, rfl⟩

theorem exec_rd_hasWaited {more : Bool} (h : exec (.rd more) s = .next t) :
    t.HasWaited (pollWait s.params.nPoll .rxne false (luSetAck more s.bus.line)) := by
  simp only [exec, execRd] at h
  obtain ⟨-, h⟩ := acceptBte_next h
  cases h
  simp only [rdBody, State.HasWaited, State.withBus_bus, complete_outcome, complete_line]
  split
  · cases more <;> exact ⟨rfl, rfl, rfl⟩
  · exact ⟨rfl, rfl, rfl⟩

/-- An `RD` that ends with `Success` has received the byte scripted for it. -/
theorem exec_rd_rdata {more : Bool} {v : Byte} {bytes : List Byte} (h : exec (.rd more) s = .next t)
    (ho : t.bus.outcome = 0) (hv : s.bus.line.env.bytes = v :: bytes) : t.bus.rdata = v := by
  obtain ⟨ready, -⟩ := bte_next rfl h
  obtain ⟨o, k, rxne, u, draws, polls, bytes', -, scripted, hb⟩ :=
    rdBody_spec s.params.nPoll more (latchRd more s.acceptedBus)
  cases h.symm.trans (exec_rd ready hb)
  exact scripted v bytes (code_injective (p := .success) ho) hv

end

/-- Settles O23, from the wait of each primitive. -/
theorem primitivesFollowScript : Obligations.PrimitivesFollowScript := by
  intro s t a address7 direction expectMore byte v bytes i _ _ hv hi h
  have table : t.bus.outcome = (a.outcome s.params.nPoll i.checksAf).code ∧
      t.bus.line.iter = a.iter s.params.nPoll i.checksAf ∧ t.bus.line.env.polls = s.bus.line.env.polls := by
    obtain rfl | rfl | rfl | rfl := hi
    · exact (exec_beginTx_hasWaited h).follows (pollWait_gives _ rfl)
    · exact (exec_sel_hasWaited h).follows (pollWait_gives _ rfl)
    · exact (exec_wr_hasWaited h).follows (pollWait_gives _ rfl)
    · exact (exec_rd_hasWaited h).follows (pollWait_gives _ rfl)
  obtain ⟨outcome, iter, polls⟩ := table
  refine ⟨outcome, iter, polls, ?_⟩
  rintro rfl success
  exact exec_rd_rdata h success hv

end Sys2Proof.Machine
end

section
/-! The composite operation `XMIT` (41_bus_composite.md R101, R103) against a scripted peer, and on an empty buffer. -/

namespace Sys2Proof.Machine

/-! ### `LEN` = 0 -/

/-- Settles O28: a buffer of length 0 lacks nothing, and the loop has no byte to send. -/
theorem xmitEmptyBuffer : Obligations.XmitEmptyBuffer := by
  intro s address7 ready ha
  obtain ⟨o, b, sent, gained, hexec, changed, ends⟩ := exec_xmit_covered (len := 0) ready ha rfl
  obtain rfl : sent = [] := List.length_eq_zero_iff.1 (Nat.le_zero.1 ends.length_le)
  refine ⟨o, gained, _, hexec, rfl, congrArg (·.line.hist) changed,
    (congrArg Bus.nWrOk changed :), (congrArg Bus.idx changed :), rfl, ?_⟩
  cases ends with
  | atBegin failed ends => exact .inl ⟨failed, _, ends, rfl⟩
  | atSel begun failed ends =>
    exact .inr ⟨_, _, begun, ends, .inl ⟨failed, by simp [beginEvents, selEvents, failed]⟩⟩
  | @atBytes _ j k v1 v3 _ _ begun selected _ _ loop =>
    obtain rfl | ho := eq_or_ne o .success
    · obtain ⟨-, -, rfl⟩ := loop
      exact .inr ⟨j, k, begun, selected, .inr ⟨rfl, v1, v3, by simp [beginEvents, selEvents, sentEvents]⟩⟩
    · obtain ⟨hlt, -⟩ := loop.of_failed ho
      exact absurd hlt (Nat.not_lt_zero _)

/-! ### The bodies under a scripted answer -/

/-- From `l` to `l'` the accesses `gained` were made, and `polls` is what is left of the scripted polls. -/
def Line.Progress (l l' : Line) (gained : List LuEvent) (polls : List Bool) : Prop :=
  l'.hist = l.hist ++ gained ∧ l'.env.polls = polls

theorem Line.Progress.trans {l l' l'' : Line} {gained gained' : List LuEvent} {polls polls' : List Bool}
    (h : l.Progress l' gained polls) (h' : l'.Progress l'' gained' polls') :
    l.Progress l'' (gained ++ gained') polls' := by
  obtain ⟨hist, -⟩ := h
  obtain ⟨hist', left⟩ := h'
  exact ⟨by rw [hist', hist, List.append_assoc], left⟩

/-- The table of D26 says that a wait under the answer `a` ends with `o` in iteration `k`, or after `k` iterations. -/
def WaitAnswer.Decides (a : WaitAnswer) (n : Nat) (checkAf : Bool) (o : TxOutcome) (k : Nat) : Prop :=
  a.outcome n checkAf = o ∧ a.iter n checkAf = k

theorem WaitAnswer.Decides.hit {n k : Nat} (hk : k < n) (checkAf : Bool) :
    (WaitAnswer.hit k).Decides n checkAf .success k :=
  ⟨if_pos hk, if_pos hk⟩

theorem WaitAnswer.Decides.nak {n k : Nat} (hk : k < n) : (WaitAnswer.nak k).Decides n true .nack k :=
  ⟨if_pos ⟨hk, rfl⟩, if_pos ⟨hk, rfl⟩⟩

section
variable {a : WaitAnswer} {n k : Nat} {o : TxOutcome} {l : Line} {rest : List Bool}

theorem beginBody_scripted (decides : a.Decides n false o k) (hp : l.env.polls = a.polls n false ++ rest) :
    ∃ l', beginBody n l = (o, l') ∧ l.Progress l' (beginEvents o k) rest := by
  obtain ⟨rfl, rfl⟩ := decides
  have given : a.Gives n false { l.env with polls := rest } (beginBody n l) := pollWait_gives .sb hp
  obtain ⟨o, k, sb, polls, -, hb⟩ := beginBody_spec n l
  rw [hb] at given ⊢
  obtain ⟨rfl, rfl, henv⟩ := given
  exact ⟨_, rfl, rfl, congrArg EnvScript.polls henv⟩

theorem selBody_scripted (a7 : BitVec 7) (direction : Bool) (decides : a.Decides n true o k)
    (hp : l.env.polls = a.polls n true ++ rest) :
    ∃ l' v1 v3, selBody n a7 direction l = (o, l') ∧
      l.Progress l' (selEvents (frameByte a7 direction) o k v1 v3) rest := by
  obtain ⟨rfl, rfl⟩ := decides
  obtain ⟨outcome, iter, henv⟩ : a.Gives n true { l.env with polls := rest }
    (pollWait n .addr true (luWriteDr (frameByte a7 direction) l)) := pollWait_gives .addr hp
  have given : (selBody n a7 direction l).1 = a.outcome n true ∧
      (selBody n a7 direction l).2.iter = a.iter n true ∧ (selBody n a7 direction l).2.env.polls = rest := by
    simp only [selBody]
    split <;> exact ⟨outcome, iter, congrArg EnvScript.polls henv⟩
  obtain ⟨o, k, addr, af, v1, v3, polls, statuses, -, hb⟩ := selBody_spec n a7 direction l
  rw [hb] at given ⊢
  obtain ⟨rfl, rfl, hpolls⟩ := given
  exact ⟨_, v1, v3, rfl, rfl, hpolls⟩

theorem wrBody_scripted {b : Bus} (v : Byte) (decides : a.Decides n true o k)
    (hp : b.line.env.polls = a.polls n true ++ rest) :
    ∃ l', wrBody n v b = (o, { b with nWrOk := b.nWrOk + (if o = .success then 1 else 0), line := l' }) ∧
      l'.iter = k ∧ b.line.Progress l' (wrEvents v o k) rest := by
  obtain ⟨rfl, rfl⟩ := decides
  have given : a.Gives n true { b.line.env with polls := rest } ((wrBody n v b).1, (wrBody n v b).2.line) := by
    have waited := pollWait_gives (l := luWriteDr v b.line) .txe hp
    simp only [wrBody]
    split <;> exact waited
  obtain ⟨o, k, txe, af, polls, -, hb⟩ := wrBody_spec n v b
  rw [hb] at given ⊢
  obtain ⟨rfl, rfl, henv⟩ := given
  exact ⟨_, rfl, rfl, rfl, congrArg EnvScript.polls henv⟩

end

/-! ### The accepted part of an `XMIT` -/

/-- The BTE after `k` more successful `WR` steps of `XMIT`. -/
def Bus.sentBytes (b : Bus) (k : Nat) (l : Line) : Bus :=
  { b with idx := b.idx + BitVec.ofNat 16 k, nWrOk := b.nWrOk + k, line := l }

theorem Bus.sentBytes_sentBytes (b : Bus) (k k' : Nat) (l l' : Line) :
    (b.sentBytes k l).sentBytes k' l' = b.sentBytes (k + k') l' := by
  simp [sentBytes, BitVec.add_assoc, BitVec.ofNat_add, Nat.add_assoc]

@[simp] theorem clearIdx_line (b : Bus) : (clearIdx b).line = b.line := rfl

theorem clearIdx_sentBytes_idx (b : Bus) {k : Nat} (hk : k < 65536) (l : Line) :
    ((clearIdx b).sentBytes k l).idx.toNat = k := by
  simp [clearIdx, Bus.sentBytes, Nat.mod_eq_of_lt hk]

section
variable {nPoll : Nat} {m : Memory} {rest : List Bool}

/-- The loop of `XMIT` passes every byte the peer accepts. -/
theorem xmitBytes_hits (n : Nat) : ∀ (hits : List Nat) (b : Bus),
    (∀ k ∈ hits, k < nPoll) → b.idx.toNat + hits.length < 65536 →
    (∀ i < b.idx.toNat + hits.length, (Memory.read m i).isSome = true) →
    b.line.env.polls = (hits.map fun k => (WaitAnswer.hit k).polls nPoll true).flatten ++ rest →
    ∃ (l : Line) (sent : List (Byte × Nat)), sent.length = hits.length ∧
      xmitBytes nPoll m (hits.length + n) b = xmitBytes nPoll m n (b.sentBytes hits.length l) ∧
      b.line.Progress l (sentEvents sent) rest := by
  intro hits
  induction hits with
  | nil =>
    intro b _ _ _ hp
    exact ⟨b.line, [], rfl, by simp [Bus.sentBytes], (List.append_nil _).symm, hp⟩
  | cons k hits ih =>
    intro b within hlt present hp
    obtain ⟨hk, within⟩ := List.forall_mem_cons.1 within
    rw [List.length_cons] at hlt present
    obtain ⟨v, hv⟩ := Option.isSome_iff_exists.1 (present b.idx.toNat (by omega))
    rw [List.map_cons, List.flatten_cons, List.append_assoc] at hp
    obtain ⟨l, hw, -, passed⟩ := wrBody_scripted v (.hit hk true) hp
    have hidx : (b.sentBytes 1 l).idx.toNat = b.idx.toNat + 1 := by simp [Bus.sentBytes]; omega
    obtain ⟨l', sent, hlen, hx, passed'⟩ := ih (b.sentBytes 1 l) within (by omega)
      (fun i hi => present i (by omega)) passed.2
    refine ⟨l', (v, k) :: sent, by simp [hlen], ?_, passed.trans passed'⟩
    rw [Bus.sentBytes_sentBytes, Nat.add_comm 1] at hx
    rw [List.length_cons, ← hx, Nat.add_right_comm, xmitBytes]
    simp only [hv, hw, if_true]
    rfl

/-- What `XMIT` makes of its loop's result: after `Success` the one `END` (41_bus_composite.md R100). -/
def endOnSuccess (r : Option TxOutcome × Bus) : Option TxOutcome × Bus :=
  if r.1 = some .success then (some .success, endBody r.2) else r

/-- The body of `XMIT` passes the address and every byte the peer accepts, and goes on with the `n` bytes left. -/
theorem xmitBody_hits {b : Bus} {len : Half} {j j' n : Nat} {hits : List Nat} (a7 : BitVec 7)
    (begun : j < nPoll) (selected : j' < nPoll) (within : ∀ k ∈ hits, k < nPoll)
    (hn : hits.length + n = len.toNat) (present : ∀ i < hits.length, (Memory.read m i).isSome = true)
    (hp : b.line.env.polls = (WaitAnswer.hit j).polls nPoll false ++ ((WaitAnswer.hit j').polls nPoll true ++
      ((hits.map fun k => (WaitAnswer.hit k).polls nPoll true).flatten ++ rest))) :
    ∃ (l : Line) (v1 v3 : Nat) (sent : List (Byte × Nat)), sent.length = hits.length ∧
      xmitBody nPoll m a7 len b = endOnSuccess (xmitBytes nPoll m n ((clearIdx b).sentBytes hits.length l)) ∧
      b.line.Progress l (beginEvents .success j ++ selEvents (frameByte a7 false) .success j' v1 v3 ++
        sentEvents sent) rest := by
  obtain ⟨l, hb, start⟩ := beginBody_scripted (.hit begun false) hp
  obtain ⟨l', v1, v3, hs, select⟩ := selBody_scripted a7 false (.hit selected true) start.2
  have hidx : ((clearIdx b).withLine l').idx.toNat = 0 := rfl
  have hlen := len.isLt
  obtain ⟨l'', sent, hsent, hx, passed⟩ := xmitBytes_hits n hits ((clearIdx b).withLine l') within (by omega)
    (fun i hi => present i (by omega)) select.2
  refine ⟨l'', v1, v3, sent, hsent, ?_, (start.trans select).trans passed⟩
  rw [hn] at hx
  simp only [xmitBody, clearIdx_line, hb, hs, hx, if_true]
  rfl

/-- The `WR` of the byte the peer rejects ends the body, after those it accepts. -/
theorem xmitBody_hits_nak {b : Bus} {len : Half} {j j' k : Nat} {hits : List Nat} (a7 : BitVec 7)
    (begun : j < nPoll) (selected : j' < nPoll) (within : ∀ k ∈ hits, k < nPoll) (rejected : k < nPoll)
    (hlen : hits.length < len.toNat) (covered : Memory.covers m len.toNat = true)
    (hp : b.line.env.polls = (WaitAnswer.hit j).polls nPoll false ++ ((WaitAnswer.hit j').polls nPoll true ++
      ((hits.map fun k => (WaitAnswer.hit k).polls nPoll true).flatten ++
        ((WaitAnswer.nak k).polls nPoll true ++ rest)))) :
    ∃ (l : Line) (v1 v3 : Nat) (sent : List (Byte × Nat)) (v : Byte), sent.length = hits.length ∧
      xmitBody nPoll m a7 len b = (some .nack, (clearIdx b).sentBytes hits.length l) ∧ l.iter = k ∧
      b.line.Progress l (beginEvents .success j ++ selEvents (frameByte a7 false) .success j' v1 v3 ++
        sentEvents sent ++ wrEvents v .nack k) rest := by
  obtain ⟨n, hn⟩ := Nat.exists_eq_add_of_lt hlen
  obtain ⟨l, v1, v3, sent, hsent, hx, passed⟩ := xmitBody_hits a7 begun selected within (n := n + 1) hn.symm
    (fun i hi => Memory.covers_read covered (hi.trans hlen)) hp
  obtain ⟨v, hv⟩ := Option.isSome_iff_exists.1 (Memory.covers_read covered hlen)
  obtain ⟨l', hw, iter, last⟩ := wrBody_scripted (b := (clearIdx b).sentBytes hits.length l) v (.nak rejected)
    passed.2
  refine ⟨l', v1, v3, sent, v, hsent, ?_, iter, passed.trans last⟩
  rw [hx, xmitBytes, clearIdx_sentBytes_idx b (hlen.trans len.isLt) l]
  simp only [hv, hw]
  rfl

end

/-! ### The three peers of R101 -/

/-- Settles O26: the wait of `SEL` ends the body, before the status reads. -/
theorem xmitNackAtAddress : Obligations.XmitNackAtAddress := by
  intro s t address7 j m len rest ready ha _ begun rejected hp h
  rw [List.append_assoc] at hp
  obtain ⟨l, hb, start⟩ := beginBody_scripted (.hit begun false) hp
  obtain ⟨l', v1, v3, hs, select⟩ := selBody_scripted (BitVec.ofNat 7 address7) false (.nak rejected) start.2
  have hx (b : Bus) (hl : b.line = s.bus.line) : xmitBody s.params.nPoll s.txbuf (BitVec.ofNat 7 address7) len b =
      (some .nack, (clearIdx b).withLine l') := by
    simp only [xmitBody, clearIdx_line, hl, hb, hs, if_true]
    rfl
  cases h.symm.trans (exec_xmit ready ha (hx _ rfl))
  refine ⟨rfl, rfl, rfl, rfl, ?_⟩
  simpa [beginEvents, selEvents, frameByte_eq] using (start.trans select).1

/-- Settles O27: the loop passes all `LEN` bytes, and `END` follows. -/
theorem xmitCooperativePeer : Obligations.XmitCooperativePeer := by
  intro s t address7 j j' len hits rest ready ha covered begun selected within hlen hp h
  simp only [List.append_assoc] at hp
  obtain ⟨l, v1, v3, sent, -, hx, passed⟩ := xmitBody_hits (n := 0) (b := latchXmit address7 len s.acceptedBus)
    (BitVec.ofNat 7 address7) begun selected within hlen (fun i hi => Memory.covers_read covered (hlen ▸ hi)) hp
  simp only [xmitBytes, endOnSuccess, if_true] at hx
  cases h.symm.trans (exec_xmit ready ha hx)
  have idx := clearIdx_sentBytes_idx (latchXmit address7 len s.acceptedBus) (hlen ▸ len.isLt) l
  rw [← hlen]
  exact ⟨rfl, BitVec.eq_of_toNat_eq (idx.trans hlen), rfl, rfl, passed.2⟩

/-- Settles O25, from where the body ends and the accesses up to there. -/
theorem xmitNackAtByte : Obligations.XmitNackAtByte := by
  intro s t address7 j j' m len hits rest ready ha covered begun selected rejected within hlen hp h
  simp only [List.append_assoc] at hp
  obtain ⟨l, v1, v3, sent, v, hsent, hx, iter, made⟩ := xmitBody_hits_nak
    (b := latchXmit address7 len s.acceptedBus) (BitVec.ofNat 7 address7) begun selected within rejected hlen covered hp
  cases h.symm.trans (exec_xmit ready ha hx)
  refine ⟨rfl, clearIdx_sentBytes_idx _ (hlen.trans len.isLt) l, rfl, rfl, iter, made.2, _, made.1, ?_, ?_⟩
  · simp [beginEvents, selEvents, setStop_not_mem_sentEvents, setStop_not_mem_wrEvents]
  · simp [beginEvents, selEvents, wrEvents, writtenBytes, writtenBytes_append, writtenBytes_sentEvents, hsent]

end Sys2Proof.Machine
end

section
/-! The edge-capture decoder (42_edge_capture.md R110 to R113, R117): the handler, the interval it takes, and `SAMPLE`
accepted, refused and made to wait. -/

namespace Sys2Proof.Machine

/-! ### The handler -/

/-- Settles O31: each level is one branch of the capture. -/
theorem edgeResult : Obligations.EdgeResult := fun _ now ie fg =>
  ⟨exec_edge_enabled ie fg now true, exec_edge_enabled ie fg now false⟩

theorem exec_edge_disabled {s : State} (off : s.handlerEnabled = false) (now : Half) (level : Bool) :
    exec (.edge now level) s = .next s :=
  if_neg (by simp [off])

/-- Settles O32: the handler is enabled at `IE` = 1 and `CTX` = `FG` only. -/
theorem edgeNotEnabledRunsNoHandler : Obligations.EdgeNotEnabledRunsNoHandler := by
  intro s now level off
  refine exec_edge_disabled ?_ now level
  obtain ie | irq := off
  · simp [State.handlerEnabled, ie]
  · simp [State.handlerEnabled, irq]

/-! ### Intervals -/

theorem interval_toNat (now since : Half) : (interval now since).toNat = (65536 - since.toNat + now.toNat) % 65536 :=
  BitVec.toNat_sub now since

/-- The start of an interval drops out of it, however often the counter has wrapped. -/
theorem interval_elapsed (start elapsed : Nat) :
    interval (BitVec.ofNat 16 (start + elapsed)) (BitVec.ofNat 16 start) = BitVec.ofNat 16 elapsed := by
  rw [interval, BitVec.ofNat_add, add_sub_cancel_left]

/-- Settles O33: the first clause of two counter values, the second of an elapsed time. -/
theorem intervalIsModular : Obligations.IntervalIsModular := by
  refine ⟨fun now t => ?_, fun start elapsed => ?_⟩
  · have hnow := now.isLt
    have ht := t.isLt
    rw [interval_toNat]
    omega
  · rw [interval_elapsed, BitVec.toNat_ofNat]
    omega

/-! ### An accepted `SAMPLE` -/

section
variable {s : State} (accepted : s.SampleReady)
include accepted

/-- Where no pair is ready `SAMPLE` ends after its step 1. -/
theorem exec_sample_empty (empty : s.ecd.ready = false) : exec .sample s = .next (withMeas 0 s) := by
  rw [exec, execSample, acceptSample_ready accepted, if_neg (by simp [empty])]

/-- Where a pair is ready `SAMPLE` measures what it has drained. -/
theorem exec_sample_ready (ready : s.ecd.ready = true) : exec .sample s = measureSnapshot (drain s) := by
  rw [exec, execSample, acceptSample_ready accepted, if_pos ready]

end

/-- Settles O34. -/
theorem sampleNotReady : Obligations.SampleNotReady := fun _ accepted empty => exec_sample_empty accepted empty

theorem measureSnapshot_of_some {s : State} {v : Nat} (h : measurePair s.ecd.snapH s.ecd.snapL = some v) :
    measureSnapshot s = .next (withMeas (BitVec.ofNat 16 v) s) := by
  simp only [measureSnapshot, h]

/-- The fault of R112, with a free `MEAS`. -/
theorem measureSnapshot_faults {s : State} (zero : ZeroDivisorPair s.ecd.snapH s.ecd.snapL)
    (param : s.params.zeroDivisor = .fault) : measureSnapshot s =
      .fault (.sampleDivideByZero (useDraw (withMeas (Config.freeMeas s.ecd.draws) s))) := by
  simp only [measureSnapshot, measurePair_eq, if_pos zero, param]

/-- Settles O35: the snapshot the drain leaves is the pair, and away from the zero divisor it has a measurement. -/
theorem sampleReadyResult : Obligations.SampleReadyResult := by
  intro s accepted ready nonzero
  have measured := (measurePair_eq s.ecd.highInt s.ecd.lowInt).trans (if_neg nonzero)
  exact (exec_sample_ready accepted ready).trans (measureSnapshot_of_some (s := drain s) measured)

/-- Settles O36: the snapshot the drain leaves is the pair, and the drain comes before the fault. -/
theorem sampleZeroDivisorFaults : Obligations.SampleZeroDivisorFaults := by
  intro s accepted ready zero param
  exact ⟨_, (exec_sample_ready accepted ready).trans (measureSnapshot_faults (s := drain s) zero param), rfl⟩

/-! ### A `SAMPLE` that does not run -/

theorem acceptSample_irq {s : State} (irq : s.ctx = .irq) (run : State → Result) :
    acceptSample s run = .refused .sampleInInterrupt :=
  if_pos irq

theorem acceptSample_off {s : State} (fg : s.ctx = .fg) (off : s.ie = false) (run : State → Result) :
    acceptSample s run = .refused .sampleWithInterruptsOff := by
  rw [acceptSample, if_neg (by simp [fg]), if_pos off]

/-- A measurement completes or faults. -/
theorem measureSnapshot_not_refused (s : State) (q : Refusal) : measureSnapshot s ≠ .refused q := by
  unfold measureSnapshot
  split
  · nofun
  · split <;> nofun

/-- An accepted `SAMPLE` is not refused after all. -/
theorem exec_sample_not_refused {s : State} (accepted : s.SampleReady) (q : Refusal) :
    exec .sample s ≠ .refused q := by
  cases ready : s.ecd.ready with
  | true =>
    rw [exec_sample_ready accepted ready]
    exact measureSnapshot_not_refused _ q
  | false =>
    rw [exec_sample_empty accepted ready]
    nofun

theorem issue_sample_not_refused {s : State} (accepted : s.SampleReady) (q : Refusal) :
    issue .sample s ≠ .refused q := by
  rw [issue, acceptSample_ready accepted]
  nofun

theorem decode_sample : decode 0x80000000 = .ok .sample := by decide

/-- Where no refusal is due and the foreground is not free, a `SAMPLE` word waits, however it is given. -/
theorem step_sample_waits {s : State} {rest : List Stimulus} (accepted : s.SampleReady)
    (unserved : s.servesEdge = false) (busy : s.foregroundFree = false)
    (ht : s.trace = .traced 0x80000000 :: rest ∨ s.trace = .presented 0x80000000 :: rest ∨
      s.trace = .issued 0x80000000 :: rest) : step s = advance s := by
  have runs (run : State → Result) := stepRunsDecodedInstruction s 0x80000000 rest .sample run unserved decode_sample
  obtain ht | ht | ht := ht
  · exact ((runs _ (.inl ⟨ht, rfl⟩)).2 busy rfl).2 (exec_sample_not_refused accepted)
  · exact ((runs _ (.inr (.inl ⟨ht, rfl, rfl⟩))).2 busy rfl).2 (exec_sample_not_refused accepted)
  · exact ((runs _ (.inr (.inr ⟨ht, rfl, rfl⟩))).2 busy rfl).2 (issue_sample_not_refused accepted)

/-- Settles O40: both refusals are acceptance's, which whole and step-by-step execution share. -/
theorem sampleRefused : Obligations.SampleRefused := by
  intro s
  simp only [exec, execSample, issue]
  refine ⟨fun irq => ⟨acceptSample_irq irq _, acceptSample_irq irq _⟩,
    fun fg off => ⟨acceptSample_off fg off _, acceptSample_off fg off _⟩, fun fg on unpending taken rest ht => ?_⟩
  have busy : s.foregroundFree = false := by
    rw [← Bool.not_eq_true, foregroundFree_iff]
    rintro ⟨idle, free⟩
    simp [idle, free] at taken
  exact step_sample_waits ⟨fg, on⟩ (by simp [State.servesEdge, unpending]) busy ht

/-! ### What every operation keeps -/

/-- Settles O41, unit by unit: a BTE operation writes the BTE only, `SAMPLE` the ECD, `EDGE` the ECD, `CNT` and
`PIN`. -/
theorem execKeepsContextAndEnable : Obligations.ExecKeepsContextAndEnable := by
  intro i s t h
  by_cases hi : i.isBte = true
  · obtain ⟨-, b, rfl⟩ := bte_next hi h
    exact ⟨rfl, rfl, rfl, rfl, rfl, rfl⟩
  · cases i <;> simp only [Instr.isBte, not_true_eq_false] at hi
    case edge =>
      obtain ⟨rfl, -⟩ | ⟨-, -, rfl⟩ := edge_next h <;> exact ⟨rfl, rfl, rfl, rfl, rfl, rfl⟩
    case sample =>
      obtain ⟨-, e, rfl, -⟩ := sample_next h
      exact ⟨rfl, rfl, rfl, rfl, rfl, rfl⟩

/-! ### A second `SAMPLE` -/

/-- `SAMPLE` would be accepted and finds no pair ready: so a `SAMPLE` leaves it, until a handler run reads low. -/
def State.Drained (s : State) : Prop := s.SampleReady ∧ s.ecd.ready = false

theorem State.Drained.of_sample {s t : State} (h : exec .sample s = .next t) : t.Drained := by
  obtain ⟨accepted, e, rfl, empty, -⟩ := sample_next h
  exact ⟨accepted, empty⟩

/-- Only a handler run that reads low sets `READY` (R31), and no operation closes the gate to `SAMPLE`. -/
theorem State.Drained.of_exec {i : Instr} {s t : State} (hs : s.Drained) (hi : ∀ now, i ≠ .edge now false)
    (h : exec i s = .next t) : t.Drained := by
  obtain ⟨⟨fg, on⟩, empty⟩ := hs
  obtain ⟨ctx, ie, -⟩ := execKeepsContextAndEnable i s t h
  obtain ⟨rises, -⟩ := readyChangesOnlyAsStated i s t h
  refine ⟨⟨ctx.trans fg, ie.trans on⟩, Bool.eq_false_iff.2 fun ready => ?_⟩
  obtain ⟨now, hlow⟩ := rises empty ready
  exact hi now hlow

theorem nextState?_eq_some {r : Result} {t : State} (h : nextState? r = some t) : r = .next t := by
  cases r <;> cases h
  rfl

theorem State.Drained.of_foldlM (between : List Instr) : ∀ {s t : State}, s.Drained →
    (∀ now, .edge now false ∉ between) →
    between.foldlM (fun x i => nextState? (exec i x)) s = some t → t.Drained := by
  induction between with
  | nil =>
    intro s t hs _ h
    cases h
    exact hs
  | cons i rest ih =>
    intro s t hs high h
    simp only [List.foldlM_cons, Option.bind_eq_bind, Option.bind_eq_some_iff] at h
    obtain ⟨u, first, h⟩ := h
    exact ih (hs.of_exec (fun now hi => high now (hi ▸ List.mem_cons_self)) (nextState?_eq_some first))
      (fun now hmem => high now (List.mem_cons_of_mem i hmem)) h

/-- Settles O39: drained by the first `SAMPLE` the state stays so up to the second, which finds no pair ready. -/
theorem secondSampleReturnsZero : Obligations.SecondSampleReturnsZero := by
  intro between s t u high first h
  obtain ⟨accepted, empty⟩ := State.Drained.of_foldlM between (.of_sample first) high h
  exact sampleNotReady u accepted empty

end Sys2Proof.Machine
end

section
/-! The state after reset, the bound on the LU accesses of an operation, and the fault of `XMIT` at an element of the
buffer that the host has not filled (70_reset_and_hazards.md R140, R143, R159, R161). -/

namespace Sys2Proof.Machine

/-! ### Reset (R140, R143) -/

/-- Settles O49: each is a value `State.reset` writes out. -/
theorem resetState : Obligations.ResetState :=
  ⟨rfl, rfl, rfl, rfl, rfl, rfl, rfl, rfl, rfl, rfl, rfl, rfl, rfl, rfl⟩

/-- Settles O50: no operation is in progress, so every clause about one holds; `ITER` and `CFG_COUNT`
are 0, and interrupts are on. -/
theorem invariantsHoldAtReset : Obligations.InvariantsHoldAtReset := by
  have noBte (ms : List Micro) : State.reset.work ≠ .bte ms := nofun
  refine ⟨rfl, ?busyPhase, ?iter, ?divider, ?interrupts⟩
  case busyPhase =>
    exact ⟨⟨fun _ => rfl, fun _ => rfl⟩, ⟨nofun, fun ⟨ms, hw⟩ => absurd hw (noBte ms)⟩,
      fun ms hw => absurd hw (noBte ms)⟩
  case iter => exact ⟨Nat.zero_le _, fun ms hw => absurd hw (noBte ms)⟩
  case divider => exact ⟨fun counted => absurd counted (Nat.lt_irrefl 0), fun _ _ hw => absurd hw (noBte _)⟩
  case interrupts => exact ⟨nofun, nofun⟩

/-! ### A command that is not refused (R83, R87, R100) -/

theorem bteReady_of_answers {i : Instr} {s : State} (hi : i.isBte = true) (answers : ∀ q, exec i s ≠ .refused q) :
    s.BteReady := by
  obtain ⟨refusedBusy, refusedIrq⟩ := bteCommandRefused i s hi
  have idle : s.bus.busy = false := Bool.eq_false_iff.2 fun busy => answers _ (refusedBusy busy).1
  refine ⟨idle, ?_⟩
  cases ctx : s.ctx with
  | fg => rfl
  | irq => exact absurd (refusedIrq idle ctx).1 (answers _)

section
variable {s : State} {address7 : Nat} (ready : s.BteReady)
include ready

theorem sel_address_le {direction : Bool} (answers : ∀ q, exec (.sel address7 direction) s ≠ .refused q) :
    address7 ≤ 127 :=
  Nat.le_of_not_lt fun above => answers _ (addressAboveRangeRefused s address7 direction 0 ready above).1

theorem xmit_address_le {len : Half} (answers : ∀ q, exec (.xmit address7 len) s ≠ .refused q) : address7 ≤ 127 :=
  Nat.le_of_not_lt fun above => answers _ (addressAboveRangeRefused s address7 false len ready above).2

end

/-! ### The bound on accesses (R159) -/

/-- The accesses of an `RD` whose wait ends with `o`, `v` being the byte read on `Success` (R85). -/
def rdEvents (more : Bool) (v : Byte) (o : TxOutcome) (k : Nat) : List LuEvent :=
  .setAck more :: waitEvents .rxne false o k ++
    (if o = .success then (if more then [.readDr v] else [.setStop, .readDr v]) else [])

section
variable {n k : Nat} {o : TxOutcome}

theorem length_beginEvents (h : waitEnds n false o k) : (beginEvents o k).length ≤ 1 + (2 * n + 1) := by
  have := length_waitEvents .sb h
  simp only [beginEvents, List.length_cons]
  omega

theorem length_selEvents (v : Byte) (v1 v3 : Nat) (h : waitEnds n true o k) :
    (selEvents v o k v1 v3).length ≤ 3 + (2 * n + 1) := by
  have := length_waitEvents .addr h
  simp only [selEvents, List.length_append, List.length_cons]
  split <;> simp only [List.length_cons, List.length_nil] <;> omega

theorem length_rdEvents (more : Bool) (v : Byte) (h : waitEnds n false o k) :
    (rdEvents more v o k).length ≤ 3 + (2 * n + 1) := by
  have := length_waitEvents .rxne h
  simp only [rdEvents, List.length_append, List.length_cons]
  split_ifs <;> simp only [List.length_cons, List.length_nil] <;> omega

/-- The loop of `XMIT` makes one data write and one wait for each byte at most. -/
theorem LoopEnd.length_gained {m : Memory} {first len i : Nat} {sent : List (Byte × Nat)} {gained : List LuEvent}
    {r : Option TxOutcome} (elements : SentFrom n m first sent) (h : LoopEnd n m first len i k sent gained r) :
    gained.length ≤ len * (1 + (2 * n + 1)) := by
  obtain ⟨-, within⟩ := elements
  have bytes := length_sentEvents within
  have all := Nat.mul_le_mul_right (1 + (2 * n + 1)) h.length_le
  match r, h with
  | none, ⟨_, _, hg⟩ => exact hg ▸ bytes.trans all
  | some o, h =>
    obtain rfl | ho := eq_or_ne o .success
    · obtain ⟨-, -, rfl⟩ := h
      exact bytes.trans all
    · obtain ⟨hlt, ends, v, -, rfl⟩ := h.of_failed ho
      have last := length_wrEvents v ends
      calc (sentEvents sent ++ wrEvents v o k).length
          ≤ sent.length * (1 + (2 * n + 1)) + (1 + (2 * n + 1)) := by rw [List.length_append]; omega
        _ = (sent.length + 1) * (1 + (2 * n + 1)) := (Nat.succ_mul ..).symm
        _ ≤ len * (1 + (2 * n + 1)) := Nat.mul_le_mul_right _ hlt

/-- The accesses of `XMIT`, wherever it ends: those of `BEGIN`, of `SEL`, of `LEN` bytes and of `END` at most. -/
theorem XmitEnds.length_gained {m : Memory} {frame : Byte} {len iter : Nat} {addr : Bool}
    {sent : List (Byte × Nat)} {gained : List LuEvent} {r : Option TxOutcome}
    (h : XmitEnds n m frame len addr iter sent gained r) :
    gained.length ≤ (1 + (2 * n + 1)) + (3 + (2 * n + 1)) + len * (1 + (2 * n + 1)) + 1 := by
  cases h with
  | atBegin _ ends =>
    have start := length_beginEvents ends
    omega
  | @atSel _ _ v1 v3 begun _ ends =>
    have start := length_beginEvents (o := .success) begun
    have sel := length_selEvents frame v1 v3 ends
    rw [List.length_append]
    omega
  | @atBytes _ _ _ v1 v3 _ _ begun selected _ elements loop =>
    have start := length_beginEvents (o := .success) begun
    have sel := length_selEvents (o := .success) frame v1 v3 selected
    have bytes := loop.length_gained elements
    simp only [List.length_append]
    split <;> simp only [List.length_cons, List.length_nil] <;> omega

end

/-- What an accepted `XMIT` answers, its body having ended with the BTE `b`. -/
def xmitAnswer (s : State) (b : Bus) : Option TxOutcome → Result
  | some o => .next (s.withBus (complete o b))
  | none => .fault (.txbufElementMissing (s.withBus b))

section
variable {s : State} {address7 : Nat} {len : Half} (ready : s.BteReady) (ha : address7 ≤ 127)
include ready ha

theorem exec_xmit_answer {r : Option TxOutcome} {b : Bus}
    (hx : xmitBody s.params.nPoll s.txbuf (BitVec.ofNat 7 address7) len (latchXmit address7 len s.acceptedBus) =
      (r, b)) :
    exec (.xmit address7 len) s = xmitAnswer s b r := by
  cases r with
  | some o => exact exec_xmit ready ha hx
  | none =>
    have uncovered : Memory.covers s.txbuf len.toNat = false :=
      Bool.eq_false_iff.2 fun covered => xmitBody_covered _ covered (congrArg Prod.fst hx)
    rw [exec, execXmit, acceptBte_ready ready, if_neg (Nat.not_lt.2 ha), uncovered]
    exact congrArg (xmitEnd s false) hx

/-- Every end of an accepted `XMIT`: the BTE `b` its body leaves, and the accesses made. -/
theorem exec_xmit_spec :
    ∃ (r : Option TxOutcome) (b : Bus) (sent : List (Byte × Nat)) (gained : List LuEvent),
      exec (.xmit address7 len) s = xmitAnswer s b r ∧
      XmitChanged (latchXmit address7 len s.acceptedBus) b sent.length gained r ∧
      XmitEnds s.params.nPoll s.txbuf (frameByte (BitVec.ofNat 7 address7) false) len.toNat b.line.lu.addr b.line.iter
        sent gained r := by
  obtain ⟨r, b, sent, gained, hx, changed, ends⟩ :=
    xmitBody_spec s.params.nPoll s.txbuf (BitVec.ofNat 7 address7) len (latchXmit address7 len s.acceptedBus)
  exact ⟨r, b, sent, gained, exec_xmit_answer ready ha hx, changed, ends⟩

end

/-- The body of `XMIT` has no outcome only where its loop has reached an element that does not exist. -/
theorem XmitEnds.missing {nPoll n iter : Nat} {m : Memory} {frame : Byte} {addr : Bool} {sent : List (Byte × Nat)}
    {gained : List LuEvent} (h : XmitEnds nPoll m frame n addr iter sent gained none) :
    sent.length < n ∧ Memory.read m sent.length = none ∧ .setStop ∉ gained := by
  cases h with
  | atBytes _ _ _ _ loop =>
    obtain ⟨hlt, hnone, rfl⟩ := loop
    exact ⟨hlt, by simpa using hnone, by simp [beginEvents, selEvents, setStop_not_mem_sentEvents]⟩

/-- Settles O47: the fixed accesses and the waits of each operation. -/
theorem accessesBounded : Obligations.AccessesBounded := by
  intro i s t h
  by_cases hi : i.isBte = true
  case neg =>
    obtain ⟨-, keeps⟩ := unitsAreDisjoint i s t h
    obtain ⟨bus, -⟩ := keeps (Bool.eq_false_iff.2 hi)
    exact ⟨[], by rw [bus, List.append_nil], Nat.zero_le _⟩
  obtain ⟨ready, -⟩ := bte_next hi h
  have answers (q : Refusal) : exec i s ≠ .refused q := by simp [h]
  cases i with
  | cfg =>
    rw [exec_cfg_next h]
    exact ⟨[_, _], List.append_assoc .., Nat.le_refl 2⟩
  | beginTx =>
    obtain ⟨o, k, sb, polls, ends, hb⟩ := beginBody_spec s.params.nPoll s.bus.line
    cases h.symm.trans (exec_beginTx ready hb)
    exact ⟨_, rfl, length_beginEvents ends⟩
  | sel address7 direction =>
    obtain ⟨o, k, addr, af, v1, v3, polls, statuses, ends, hb⟩ :=
      selBody_spec s.params.nPoll (BitVec.ofNat 7 address7) direction s.bus.line
    cases h.symm.trans (exec_sel ready (sel_address_le ready answers) hb)
    exact ⟨_, rfl, length_selEvents _ v1 v3 ends⟩
  | wr v =>
    obtain ⟨o, k, txe, af, polls, ends, hb⟩ := wrBody_spec s.params.nPoll v (latchWr v s.acceptedBus)
    cases h.symm.trans (exec_wr ready hb)
    exact ⟨_, rfl, length_wrEvents v ends⟩
  | rd more =>
    obtain ⟨o, k, rxne, v, draws, polls, bytes, ends, -, hb⟩ :=
      rdBody_spec s.params.nPoll more (latchRd more s.acceptedBus)
    cases h.symm.trans (exec_rd ready hb)
    exact ⟨_, List.append_assoc .., length_rdEvents more v ends⟩
  | endTx =>
    cases h.symm.trans (exec_endTx ready)
    exact ⟨[.setStop], rfl, Nat.le_refl 1⟩
  | xmit address7 len =>
    obtain ⟨r, b, sent, gained, hexec, changed, ends⟩ :=
      exec_xmit_spec (len := len) ready (xmit_address_le ready answers)
    cases r with
    | none => cases h.symm.trans hexec
    | some o =>
      cases h.symm.trans hexec
      refine ⟨gained, congrArg (·.line.hist) changed, ends.length_gained.trans (Nat.le_of_eq ?_)⟩
      rw [accessBound]
      ring
  | sample => cases hi
  | edge => cases hi

/-! ### The fault of `XMIT` (R161) -/

/-- Settles O29, from where the body of a faulting `XMIT` ended and what it changed. -/
theorem xmitFaultsOnlyAtMissingElement : Obligations.XmitFaultsOnlyAtMissingElement := by
  intro s address7 len fault h
  have answers (q : Refusal) : exec (.xmit address7 len) s ≠ .refused q := by simp [h]
  have ready := bteReady_of_answers rfl answers
  have ha := xmit_address_le ready answers
  obtain ⟨r, b, sent, gained, hexec, changed, ends⟩ := exec_xmit_spec (len := len) ready ha
  cases r with
  | some o => cases h.symm.trans hexec
  | none =>
    cases h.symm.trans hexec
    obtain ⟨below, missing, unstopped⟩ := ends.missing
    have idx : b.idx.toNat = sent.length := by
      rw [(congrArg Bus.idx changed : b.idx = _), BitVec.toNat_ofNat]
      exact Nat.mod_eq_of_lt (below.trans len.isLt)
    exact ⟨_, gained, rfl, idx.symm ▸ below, (congrArg _ idx).trans missing, rfl, rfl,
      (congrArg Bus.outcome changed :), (congrArg Bus.busy changed :), congrArg (·.line.hist) changed, unstopped⟩

/-- Settles O30: the peer lets the body pass every element before the missing one, and there the loop has no outcome
(log 8). -/
theorem xmitFaultsAtMissingElement : Obligations.XmitFaultsAtMissingElement := by
  intro s address7 j j' len hits rest ready ha begun selected within below covered missing hp
  simp only [List.append_assoc] at hp
  obtain ⟨n, hn⟩ := Nat.exists_eq_add_of_lt below
  obtain ⟨l, v1, v3, sent, -, hx, -⟩ := xmitBody_hits (n := n + 1) (b := latchXmit address7 len s.acceptedBus)
    (BitVec.ofNat 7 address7) begun selected within hn.symm (fun i hi => Memory.covers_read covered hi) hp
  have idx := clearIdx_sentBytes_idx (latchXmit address7 len s.acceptedBus) (below.trans len.isLt) l
  simp only [xmitBytes, idx, missing] at hx
  exact ⟨_, exec_xmit_answer ready ha hx, idx, rfl, rfl⟩

end Sys2Proof.Machine
end

section
/-! `SAMPLE` at the zero divisor where the parameter asks for a draw (92_eei_decisions.md D19). -/

namespace Sys2Proof.Machine

/-- The bounded draw of D19 into `MEAS`. -/
theorem measureSnapshot_draws {s : State} (zero : ZeroDivisorPair s.ecd.snapH s.ecd.snapL)
    (param : s.params.zeroDivisor = .draw) : measureSnapshot s =
      .next (useDraw (withMeas (BitVec.ofNat 16 (Config.freeMeasInRange s.ecd.draws % 5001)) s)) := by
  simp only [measureSnapshot, measurePair_eq, if_pos zero, param]

/-- Settles O37: the snapshot the drain leaves is the pair, so the draw is taken, and its range is that of every
`SAMPLE` that completes. -/
theorem sampleZeroDivisorDraws : Obligations.SampleZeroDivisorDraws := by
  intro s accepted ready zero param
  have completes := (exec_sample_ready accepted ready).trans (measureSnapshot_draws (s := drain s) zero param)
  exact ⟨_, completes, measurementInRange s _ completes, rfl⟩

end Sys2Proof.Machine
end
